-- ==== Sys2Proof/Word.lean ====
section
/-! DEFINITION. The bit-vector types of the core: a byte, the 32-bit operands and the bundles of its
ports, with the widths of spec rules R6, R57 to R62. -/

namespace Sys2Proof

/-- A byte, 8 bits, unsigned (R9). -/
abbrev Byte := BitVec 8

/-- `LENW` = 32 bits: `length`, `blen`, `cap`, `nf`, `count` and the offset registers (R6, R14, R24). -/
abbrev Word := BitVec 32

/-- One beat of the `CMD` channel, 83 bits (R57, R58). -/
abbrev CmdBeat := BitVec 83

/-- One beat of the `FLD` channel, 68 bits (R57, R60). -/
abbrev FldBeat := BitVec 68

/-- One `ACC` control word, 10 bits (R57, R61). -/
abbrev AccWord := BitVec 10

/-- One beat of the `RSP` channel, 50 bits (R57, R62). -/
abbrev RspBeat := BitVec 50

end Sys2Proof
end

