-- ==== Sys2Proof/Config.lean ====
section
/-! DEFINITION. The parameters of the core (R6) and the one free value the spec leaves: what `PBUF`
holds where nothing has been staged (R22, U14). -/

namespace Sys2Proof.Config

/-- First sync byte (R6, R46). -/
abbrev sync1 : Byte := 0xB5

/-- Second sync byte (R6, R46). -/
abbrev sync2 : Byte := 0x62

/-- `OVERHEAD`: six bytes before the payload and two after it (R6, R51). -/
abbrev overhead : Nat := 8

/-- `PMAX`: the largest payload byte count the 16-bit length field can hold (R6, R121). -/
abbrev pMax : Nat := 65535

/-- `N_INST`: the default number of core instances (R6, U17); `System.reset` takes it as an argument. -/
abbrev nInst : Nat := 1

/-- FREE VALUE (log 7): the unspecified byte at an index of `PBUF` that nothing has staged since a reset.
Its arguments are the instance's seed, the number of the reset and the index, so that instances and
resets are free of each other. It has no body: nothing can be proved of it (R22, R141, U14). -/
opaque pbufFree : Nat → Nat → Nat → Byte

end Sys2Proof.Config
end

