-- ==== Sys2Proof/Syntax.lean ====
section
/-! DEFINITION. The operation set of R56 as one inductive, `Instr`, one constructor for each row of
spec/opcode_table.json; the three bundles an encoding may stand in; and the response beat's contents. -/

namespace Sys2Proof

/-- The 14 operations (R56), each with the operands its bundle carries, ignored bits left out (R66, log 19). -/
inductive Instr where
  /-- `CKSUM length, blen` (R77): checksum of the first `length` bytes of the `blen`-byte buffer at `SRC`. -/
  | cksum (length blen : Word)
  /-- `BUILD cap, cls, id, poll` with `nf` fields to follow on `FLD` (R85). -/
  | build (cap nf : Word) (cls id : Byte) (poll : Bool)
  /-- `ACC.CLR` (R71). -/
  | accClr
  /-- `ACC.ABS d` (R72). -/
  | accAbs (d : Byte)
  /-- `ACC.HOLD` (R73). -/
  | accHold
  /-- `FLD.U8 v` (R108). -/
  | fldU8 (v : BitVec 8)
  /-- `FLD.I8 v` (R109). -/
  | fldI8 (v : BitVec 8)
  /-- `FLD.RAW v` (R110). -/
  | fldRaw (v : BitVec 8)
  /-- `FLD.U16 v` (R111). -/
  | fldU16 (v : BitVec 16)
  /-- `FLD.I16 v` (R112). -/
  | fldI16 (v : BitVec 16)
  /-- `FLD.U32 v` (R113). -/
  | fldU32 (v : BitVec 32)
  /-- `FLD.I32 v` (R114). -/
  | fldI32 (v : BitVec 32)
  /-- `FLD.F32 v` (R115), `v` the IEEE bit pattern. -/
  | fldF32 (v : BitVec 32)
  /-- `FLD.F64 v` (R116), `v` the IEEE bit pattern. -/
  | fldF64 (v : BitVec 64)
  deriving DecidableEq, Repr

/-- The two host operations; U2: "exactly two constructors so that the codes cannot be built". -/
inductive Command where
  | cksum (length blen : Word)
  | build (cap nf : Word) (cls id : Byte) (poll : Bool)
  deriving DecidableEq, Repr

/-- The three accumulator micro-operations (R56, R70). -/
inductive AccOp where
  | clr
  | abs (d : Byte)
  | hold
  deriving DecidableEq, Repr

/-- The nine field kinds (R105); U3: "exactly nine constructors". -/
inductive FieldKind where
  | u8 | i8 | raw | u16 | i16 | u32 | i32 | f32 | f64
  deriving DecidableEq, Repr

/-- One payload field: its kind and the 64 bits of `FLD.val` (R60, R105). -/
abbrev Field := FieldKind × BitVec 64

/-- An encoding in its code space: "a match/mask pair is meaningful only within its own format" (R69). -/
inductive Bundle where
  | cmd (w : CmdBeat)
  | fld (w : FldBeat)
  | acc (w : AccWord)
  deriving DecidableEq, Repr

/-- Why an encoding has no meaning (R65): the reserved `op` codes and the reserved `kind` codes. -/
inductive DecodeError where
  | reservedOp (op : BitVec 2)
  | reservedKind (kind : BitVec 4)
  deriving DecidableEq, Repr

/-- `RSP.status` (R122); U13: "exactly three constructors". -/
inductive Status where
  | ok | bufferTooSmall | invalidRange
  deriving DecidableEq, Repr

/-- What one `RSP` beat says (R62). -/
structure Rsp where
  status : Status
  ckA    : Byte
  ckB    : Byte
  count  : Word
  deriving DecidableEq, Repr

end Sys2Proof
end

