-- ==== Sys2Proof/WellFormed.lean ====
section
/-! DEFINITION. What a conforming host may send: commands and beats with no reserved code (R65), a
field count and a payload that the length field can hold (R121, R153). Operand widths are in the types. -/

namespace Sys2Proof

/-- Size in bytes of a field of each kind (R60, R105; log 17 for `f32` and `f64`). -/
def FieldKind.bytes : FieldKind → Nat
  | .u8 => 1
  | .i8 => 1
  | .raw => 1
  | .u16 => 2
  | .i16 => 2
  | .u32 => 4
  | .i32 => 4
  | .f32 => 4
  | .f64 => 8

/-- The payload byte count of a field list, `psize` (R86, R107). -/
def payloadSize (F : List Field) : Nat := (F.map fun f => f.1.bytes).sum

/-- A field list inside the core's domain: `psize <= 65535`, poll or not (R121, U1). -/
def payloadFits (F : List Field) : Bool := decide (payloadSize F ≤ Config.pMax)

/-- An instruction of a conforming host: "a conforming `nf` is at most 65535" (R153). Every other
operand may take every value of its type (R58, R61, R99). -/
def Instr.wellFormed : Instr → Bool
  | .cksum _ _ => true
  | .build _ nf _ _ _ => decide (nf.toNat ≤ Config.pMax)
  | .accClr => true
  | .accAbs _ => true
  | .accHold => true
  | .fldU8 _ => true
  | .fldI8 _ => true
  | .fldRaw _ => true
  | .fldU16 _ => true
  | .fldI16 _ => true
  | .fldU32 _ => true
  | .fldI32 _ => true
  | .fldF32 _ => true
  | .fldF64 _ => true

/-- A bundle that holds no reserved code: `op` 1 or 2, `kind` at most 8, any `ACC` word (R65). -/
def Bundle.wellFormed : Bundle → Bool
  | .cmd w => decide (w.extractLsb' 0 2 = 1#2 ∨ w.extractLsb' 0 2 = 2#2)
  | .fld w => decide ((w.extractLsb' 0 4).toNat ≤ 8)
  | .acc _ => true

end Sys2Proof
end

