-- ==== Sys2Proof/Decode.lean ====
section
/-! DEFINITION. Decoding, total on every bundle and rejecting by name (R58 to R61, R65, R69); then the
encoder, from the same tables; the response bundle (R62); and the host's entry `decodeTableWord`. -/

namespace Sys2Proof

/-! ## Fields of the bundles -/

/-- `CMD.op`, bits[1:0] (R58). -/
def cmdOp (w : CmdBeat) : BitVec 2 := w.extractLsb' 0 2

/-- `CMD.poll`, bit 2 (R58). -/
def cmdPoll (w : CmdBeat) : Bool := w.getLsbD 2

/-- `CMD.cls`, bits[10:3] (R58). -/
def cmdCls (w : CmdBeat) : Byte := w.extractLsb' 3 8

/-- `CMD.id`, bits[18:11] (R58). -/
def cmdId (w : CmdBeat) : Byte := w.extractLsb' 11 8

/-- `CMD.n`, bits[50:19]: `length` of a `CKSUM`, `cap` of a `BUILD` (R58, R59). -/
def cmdN (w : CmdBeat) : Word := w.extractLsb' 19 32

/-- `CMD.m`, bits[82:51]: `blen` of a `CKSUM`, `nf` of a `BUILD` (R58, R59). -/
def cmdM (w : CmdBeat) : Word := w.extractLsb' 51 32

/-- `FLD.kind`, bits[3:0] (R60). -/
def fldKind (w : FldBeat) : BitVec 4 := w.extractLsb' 0 4

/-- `FLD.val`, bits[67:4] (R60). -/
def fldVal (w : FldBeat) : BitVec 64 := w.extractLsb' 4 64

/-- `ACC.clr`, bit 9 (R61). -/
def accClrBit (w : AccWord) : Bool := w.getLsbD 9

/-- `ACC.en`, bit 8 (R61). -/
def accEnBit (w : AccWord) : Bool := w.getLsbD 8

/-- `ACC.d`, bits[7:0] (R61). -/
def accData (w : AccWord) : Byte := w.extractLsb' 0 8

/-! ## Decoding -/

/-- A `CMD` beat "is decoded by bits[1:0] alone" (R69); operands by R59, `op` 0 and 3 reserved (R65). -/
def decodeCmd (w : CmdBeat) : Except DecodeError Command :=
  if cmdOp w = 1#2 then .ok (.cksum (cmdN w) (cmdM w))
  else if cmdOp w = 2#2 then .ok (.build (cmdN w) (cmdM w) (cmdCls w) (cmdId w) (cmdPoll w))
  else .error (.reservedOp (cmdOp w))

/-- The field kind of a `kind` code; 9 to 15 are reserved (R60, R65). -/
def FieldKind.ofCode (k : BitVec 4) : Option FieldKind :=
  match k.toNat with
  | 0 => some .u8
  | 1 => some .i8
  | 2 => some .raw
  | 3 => some .u16
  | 4 => some .i16
  | 5 => some .u32
  | 6 => some .i32
  | 7 => some .f32
  | 8 => some .f64
  | _ => none

/-- An `FLD` beat is decoded "by bits[3:0] alone" (R69). -/
def decodeFld (w : FldBeat) : Except DecodeError Field :=
  match FieldKind.ofCode (fldKind w) with
  | some k => .ok (k, fldVal w)
  | none => .error (.reservedKind (fldKind w))

/-- An `ACC` word is decoded "by bits[9:8] with bits[9] taking priority" (R61, R69). -/
def decodeAcc (w : AccWord) : AccOp :=
  if accClrBit w then .clr else if accEnBit w then .abs (accData w) else .hold

/-- The instruction a command is. -/
def Instr.ofCommand : Command → Instr
  | .cksum length blen => .cksum length blen
  | .build cap nf cls id poll => .build cap nf cls id poll

/-- The instruction a micro-operation is. -/
def Instr.ofAccOp : AccOp → Instr
  | .clr => .accClr
  | .abs d => .accAbs d
  | .hold => .accHold

/-- The instruction a field is: the value is the low `8 * size` bits of `val`, the rest ignored (R60, R66). -/
def Instr.ofField : Field → Instr
  | (.u8, v) => .fldU8 (v.extractLsb' 0 8)
  | (.i8, v) => .fldI8 (v.extractLsb' 0 8)
  | (.raw, v) => .fldRaw (v.extractLsb' 0 8)
  | (.u16, v) => .fldU16 (v.extractLsb' 0 16)
  | (.i16, v) => .fldI16 (v.extractLsb' 0 16)
  | (.u32, v) => .fldU32 (v.extractLsb' 0 32)
  | (.i32, v) => .fldI32 (v.extractLsb' 0 32)
  | (.f32, v) => .fldF32 (v.extractLsb' 0 32)
  | (.f64, v) => .fldF64 v

/-- The decoder over the three code spaces of R69. -/
def decode : Bundle → Except DecodeError Instr
  | .cmd w => (decodeCmd w).map Instr.ofCommand
  | .fld w => (decodeFld w).map Instr.ofField
  | .acc w => .ok (Instr.ofAccOp (decodeAcc w))

/-! ## Encoding -/

/-- `v` placed at bits[lo + w - 1 : lo] of a bundle of `W` bits, zero elsewhere. -/
def atBit (W lo : Nat) {w : Nat} (v : BitVec w) : BitVec W := v.setWidth W <<< lo

/-- A `CMD` bundle from its six fields (R58). -/
def cmdBundle (op : BitVec 2) (poll : Bool) (cls id : Byte) (n m : Word) : CmdBeat :=
  atBit 83 0 op ||| atBit 83 2 (BitVec.ofBool poll) ||| atBit 83 3 cls ||| atBit 83 11 id |||
    atBit 83 19 n ||| atBit 83 51 m

/-- An `FLD` bundle from its two fields (R60). -/
def fldBundle (kind : BitVec 4) (val : BitVec 64) : FldBeat := atBit 68 0 kind ||| atBit 68 4 val

/-- An `ACC` word from its three fields (R61). -/
def accBundle (clr en : Bool) (d : Byte) : AccWord :=
  atBit 10 9 (BitVec.ofBool clr) ||| atBit 10 8 (BitVec.ofBool en) ||| atBit 10 0 d

/-- The `kind` code of a field kind (R60). -/
def FieldKind.code : FieldKind → BitVec 4
  | .u8 => 0
  | .i8 => 1
  | .raw => 2
  | .u16 => 3
  | .i16 => 4
  | .u32 => 5
  | .i32 => 6
  | .f32 => 7
  | .f64 => 8

/-- The `FLD` beat that carries a field (R60). -/
def Field.beat (f : Field) : FldBeat := fldBundle f.1.code f.2

/-- The bundle of an instruction, with every ignored bit 0 (R58 to R61). -/
def encode : Instr → Bundle
  | .cksum length blen => .cmd (cmdBundle 1 false 0 0 length blen)
  | .build cap nf cls id poll => .cmd (cmdBundle 2 poll cls id cap nf)
  | .accClr => .acc (accBundle true false 0)
  | .accAbs d => .acc (accBundle false true d)
  | .accHold => .acc (accBundle false false 0)
  | .fldU8 v => .fld (fldBundle 0 (v.setWidth 64))
  | .fldI8 v => .fld (fldBundle 1 (v.setWidth 64))
  | .fldRaw v => .fld (fldBundle 2 (v.setWidth 64))
  | .fldU16 v => .fld (fldBundle 3 (v.setWidth 64))
  | .fldI16 v => .fld (fldBundle 4 (v.setWidth 64))
  | .fldU32 v => .fld (fldBundle 5 (v.setWidth 64))
  | .fldI32 v => .fld (fldBundle 6 (v.setWidth 64))
  | .fldF32 v => .fld (fldBundle 7 (v.setWidth 64))
  | .fldF64 v => .fld (fldBundle 8 v)

/-- The `status` codes of R122. -/
def Status.code : Status → BitVec 2
  | .ok => 0
  | .bufferTooSmall => 1
  | .invalidRange => 2

/-- The `RSP` bundle (R62). -/
def Rsp.beat (r : Rsp) : RspBeat :=
  atBit 50 0 r.status.code ||| atBit 50 2 r.ckA ||| atBit 50 10 r.ckB ||| atBit 50 18 r.count

/-! ## The opcode table -/

/-- One row of spec/opcode_table.json: an encoding `w` selects the row when `w AND mask = match` (R69). -/
def rowSelects (mask pattern : Nat) : Bundle → Bool
  | .cmd w => decide (w.toNat &&& mask = pattern)
  | .fld w => decide (w.toNat &&& mask = pattern)
  | .acc w => decide (w.toNat &&& mask = pattern)

/-- The `(mask, match)` pair of each instruction's row, as the table prints it. -/
def Instr.row : Instr → Nat × Nat
  | .cksum _ _ => (0x3, 0x1)
  | .build _ _ _ _ _ => (0x3, 0x2)
  | .accClr => (0x200, 0x200)
  | .accAbs _ => (0x300, 0x100)
  | .accHold => (0x300, 0x000)
  | .fldU8 _ => (0xF, 0x0)
  | .fldI8 _ => (0xF, 0x1)
  | .fldRaw _ => (0xF, 0x2)
  | .fldU16 _ => (0xF, 0x3)
  | .fldI16 _ => (0xF, 0x4)
  | .fldU32 _ => (0xF, 0x5)
  | .fldI32 _ => (0xF, 0x6)
  | .fldF32 _ => (0xF, 0x7)
  | .fldF64 _ => (0xF, 0x8)

/-- The code space of a table row that has `nbits` bits, and its word there (log 12): the `ACC` rows
have 10 bits, the `FLD` rows 68 and the `CMD` rows 83, so 9 to 16 bits is `ACC`, more than 72 is `CMD`
and anything else is `FLD`. -/
def bundleOfTableWord (nbits w : Nat) : Bundle :=
  if 72 < nbits then .cmd (BitVec.ofNat 83 w)
  else if 8 < nbits ∧ nbits ≤ 16 then .acc (BitVec.ofNat 10 w)
  else .fld (BitVec.ofNat 68 w)

/-- The instruction the decoder reads from a word of the opcode table. -/
def decodeTableWord (nbits w : Nat) : Option Instr :=
  match decode (bundleOfTableWord nbits w) with
  | .ok i => some i
  | .error _ => none

end Sys2Proof
end

