-- ==== Sys2Proof/Machine/State.lean ====
section
/-! DEFINITION. The state of one core instance, the reasons a step can stop, and the state after reset.
Registers: the table of R11. Channels: R57. Memory and ports: R25 to R29. -/

namespace Sys2Proof.Machine

/-- Sequencer phases; `PH` never holds another value (R16). -/
inductive Phase where
  | idle | load | check | sync1 | sync2 | cls | idb | lenLo | lenHi | payload | cka | ckb | range | resp
  deriving DecidableEq, Repr

/-- The value of the 4-bit register `PH` (R16). -/
def Phase.code : Phase → BitVec 4
  | .idle => 0
  | .load => 1
  | .check => 2
  | .sync1 => 3
  | .sync2 => 4
  | .cls => 5
  | .idb => 6
  | .lenLo => 7
  | .lenHi => 8
  | .payload => 9
  | .cka => 10
  | .ckb => 11
  | .range => 12
  | .resp => 13

/-- The running operation (R11, R16): what the 2-bit latch `OP` holds. -/
inductive RunOp where
  | none | cksum | build
  deriving DecidableEq, Repr

/-- The value of the 2-bit latch `OP` (R11). -/
def RunOp.code : RunOp → BitVec 2
  | .none => 0
  | .cksum => 1
  | .build => 2

/-- The host's memory: bytes by address, in the canonical form of `Memory.wf` (log 4, log 5). -/
abbrev Memory := List Host.Cell

/-- What the host has bound to a memory port: offset 0 of the port is the byte at `base`, and `size`
bytes are really there (R25, R29, R63, R64, R152; log 4). -/
structure Port where
  base : Nat
  size : Nat
  deriving DecidableEq, Repr

/-- One core instance with its channels, its ports and the memory they reach. -/
structure State where
  /-- `CK_A` (R10). -/
  ckA      : Byte
  /-- `CK_B` (R10). -/
  ckB      : Byte
  /-- `CLS` (R12). -/
  cls      : Byte
  /-- `ID` (R12). -/
  idb      : Byte
  /-- `POLL` (R12). -/
  poll     : Bool
  /-- `LEN` (R13). -/
  len      : BitVec 16
  /-- `CAP` (R14). -/
  cap      : Word
  /-- `CNT` (R14). -/
  cnt      : Word
  /-- `OFF` (R14). -/
  off      : Word
  /-- `NFR` (R15). -/
  nfr      : Word
  /-- `PLEN` (R15). -/
  plen     : BitVec 17
  /-- `PBUF` (R15): the bytes from index 0 up that have been staged since reset; `pbufRead` reads one. -/
  pbuf     : List Byte
  /-- `PH` (R16). -/
  ph       : Phase
  /-- `OP` (R11). -/
  op       : RunOp
  /-- The response formed and not yet sent (R22, R101; log 22). -/
  response : Option Rsp
  /-- `CMD`: beats sent by the host and not yet taken, oldest first (R57). -/
  cmd      : List CmdBeat
  /-- `FLD`: beats sent by the host and not yet taken, oldest first (R57). -/
  fld      : List FldBeat
  /-- `RSP`: beats sent by the core and not yet received, oldest first (R57). -/
  rsp      : List RspBeat
  /-- A control word on the accumulator's `ACC` input that the sequencer did not issue (R61, U4; log 2). -/
  acc      : Option AccWord
  /-- The host's memory (R25; log 4). -/
  mem      : Memory
  /-- The buffer bound to `SRC` (R26, R63). -/
  src      : Port
  /-- The buffer bound to `DST` (R27, R64). -/
  dst      : Port
  /-- The MODEL's own: how many resets there have been, an argument of the free value (log 7). -/
  epoch    : Nat
  /-- The MODEL's own: which instance's free value it is (log 7). No operation reads it for anything
  else: the core has "no instance identifier" (R137). -/
  seed     : Nat
  deriving DecidableEq, Repr

/-- Why the machine stops with a fault. -/
inductive Fault where
  /-- Raised by the sequencer in a register content that no rule produces: `CHECK` with `OP = 0`,
  `PAYLOAD` with `OFF < 6`, `RESP` with no response (log 11). Safe: no run from a state with
  `Inv` raises it, so nothing is proved of hardware by stopping there. -/
  | sequencerOffWalk
  deriving DecidableEq, Repr

/-- Why an encoding or an access has no meaning. -/
inductive Refusal where
  /-- An arm of `exec` with no meaning yet; raised by none. Safe. -/
  | notModelled (mnemonic : String)
  /-- Raised when a `CMD` beat with reserved `op` 0 or 3 is taken (R65, U2). Safe: the spec gives it no meaning. -/
  | reservedOp (op : BitVec 2)
  /-- Raised when an `FLD` beat with reserved `kind` 9 to 15 is taken (R65, U3). Safe: as above. -/
  | reservedKind (kind : BitVec 4)
  /-- Raised when a field would make the payload longer than 65535 bytes (R121, U1; log 15). Safe. -/
  | payloadTooLarge
  /-- Raised by a read of `SRC` beyond the bytes really bound, `blen` overstated (R152, U11; log 8). Safe. -/
  | srcOverrun
  /-- Raised by a write of `DST` beyond the bytes really bound, `cap` overstated (R152, U12; log 9). Safe. -/
  | dstOverrun
  deriving DecidableEq, Repr

/-- How a step or a part of one ends. -/
abbrev Result := Host.Outcome State Fault Refusal

/-- What the machine has to do next (Fetch.lean). -/
inductive Fetched where
  /-- No beat is there to take: the core waits (R57, R135, R153). -/
  | wait
  /-- An encoding was taken and decoded: run the instruction in the state without the beat. -/
  | run (i : Instr) (s : State)
  /-- A reserved encoding was taken (R65). -/
  | reserved (e : DecodeError)
  /-- The sequencer is inside an operation: it makes its next step (R82, R101). -/
  | sequence
  deriving DecidableEq, Repr

/-- The state after reset (R22, R141): every register 0, `PH = IDLE`, channels empty, no response
pending, `PBUF` unspecified. Nothing is bound to the ports (log 6), no memory is listed (log 5). -/
def State.reset : State where
  ckA := 0
  ckB := 0
  cls := 0
  idb := 0
  poll := false
  len := 0
  cap := 0
  cnt := 0
  off := 0
  nfr := 0
  plen := 0
  pbuf := []
  ph := .idle
  op := .none
  response := none
  cmd := []
  fld := []
  rsp := []
  acc := none
  mem := []
  src := ⟨0, 0⟩
  dst := ⟨0, 0⟩
  epoch := 0
  seed := 0

end Sys2Proof.Machine
end

