-- ==== Sys2Proof/Machine/Ops.lean ====
section
/-! DEFINITION. The named operations over memory, ports, registers and channels, the sending of a
response, and the raising of an error, the core's one "exception" (R128). -/

namespace Sys2Proof.Machine

/-! ## Outcomes -/

/-- Go on with `f` where a part of a step gives a next state. -/
def andThen (o : Result) (f : State → Result) : Result :=
  match o with
  | .next s => f s
  | .fault r => .fault r
  | .refused r => .refused r

/-- `k` applications of a step one after another, stopping at a fault or a refusal. -/
def iterate (f : State → Result) : Nat → State → Result
  | 0, s => .next s
  | k + 1, s => andThen (f s) (iterate f k)

/-- The refusal a reserved encoding gives (R65). -/
def refusalOf : DecodeError → Refusal
  | .reservedOp op => .reservedOp op
  | .reservedKind kind => .reservedKind kind

/-! ## Memory -/

/-- DESIGN CHOICE (log 5): what a byte of the host's memory that nothing has written reads as. -/
def Memory.unlisted : Byte := 0

/-- The byte at an address. -/
def Memory.read : Memory → Nat → Byte
  | [], _ => Memory.unlisted
  | (k, b) :: m, a => if k = a then b else Memory.read m a

/-- A byte put in front of the cells of higher addresses, in canonical form: one that reads as an
unlisted byte does is not listed. -/
def Memory.put (a : Nat) (v : Byte) (m : Memory) : Memory :=
  if v = Memory.unlisted then m else (a, v) :: m

/-- Store one byte, keeping the canonical form (R35, R37). -/
def Memory.write : Memory → Nat → Byte → Memory
  | [], a, v => Memory.put a v []
  | (k, b) :: m, a, v =>
    if a < k then Memory.put a v ((k, b) :: m)
    else if a = k then Memory.put a v m
    else (k, b) :: Memory.write m a v

/-- Every address listed is at least `lo`, addresses rise strictly, and no entry is what an unlisted
address reads as. -/
def Memory.wfFrom : Nat → Memory → Bool
  | _, [] => true
  | lo, (k, b) :: m => decide (lo ≤ k) && decide (b ≠ Memory.unlisted) && Memory.wfFrom (k + 1) m

/-- The canonical form: equal memories are equal lists. -/
def Memory.wf (m : Memory) : Bool := Memory.wfFrom 0 m

/-! ## Ports -/

/-- `MemRead(SRC, off, 1)`: one byte of the buffer bound at the moment of the read (R26, R63; DESIGN CHOICE,
log 25); beyond it, U11 (log 8). -/
def readSrc (off : Nat) (s : State) : Except Refusal Byte :=
  if off < s.src.size then .ok (s.mem.read (s.src.base + off)) else .error .srcOverrun

/-- `MemWrite(DST, off, 1, b)`: one byte of the buffer bound at the moment of the write (R27, R64; DESIGN
CHOICE, log 25); beyond it, U12 (log 9). -/
def writeDst (off : Nat) (b : Byte) (s : State) : Result :=
  if off < s.dst.size then .next { s with mem := s.mem.write (s.dst.base + off) b }
  else .refused .dstOverrun

/-- `MemWrite(DST, off, n, bs)`, "lowest offset first" (R9, R36). -/
def writeDstBytes : Nat → List Byte → State → Result
  | _, [], s => .next s
  | off, b :: bs, s => andThen (writeDst off b s) (writeDstBytes (off + 1) bs)

/-- `SRC[0 ..< n]`, the bytes of the buffer bound to `SRC` (R9, R26). -/
def srcBytes (n : Nat) (s : State) : List Byte :=
  (List.range n).map fun k => s.mem.read (s.src.base + k)

/-- `DST[0 ..< n]`, as the host sees the buffer bound to `DST` (R27, R28); the core never reads it. -/
def dstBytes (n : Nat) (s : State) : List Byte :=
  (List.range n).map fun k => s.mem.read (s.dst.base + k)

/-! ## The accumulator -/

/-- `ACC.CLR` on the register pair (R71). -/
def clearAcc (s : State) : State := { s with ckA := 0, ckB := 0 }

/-- `ACC.ABS d` on the register pair; the second line uses the new `CK_A` (R72). -/
def absorb (d : Byte) (s : State) : State :=
  let a := s.ckA + d
  { s with ckA := a, ckB := s.ckB + a }

/-- One `ACC.ABS` for each byte, first byte first (R74). -/
def absorbAll : List Byte → State → State
  | [], s => s
  | d :: ds, s => absorbAll ds (absorb d s)

/-- The function `fletcher8` of R74, as the spec writes it: a fold from (0, 0). -/
def fletcher8 (bs : List Byte) : Byte × Byte :=
  bs.foldl (fun p d => (p.1 + d, p.2 + (p.1 + d))) (0, 0)

/-! ## The staging buffer -/

/-- `PBUF[k]`; an index nothing has staged since reset holds the free value (R22, U14; log 7). -/
def pbufRead (s : State) (k : Nat) : Byte := s.pbuf.getD k (Config.pbufFree s.seed s.epoch k)

/-- `PBUF[0 ..< n]`. -/
def pbufBytes (n : Nat) (s : State) : List Byte := (List.range n).map (pbufRead s)

/-- Field intake: `PBUF[PLEN ..< PLEN + len(bs)] <- bs; PLEN <- PLEN + len(bs)` (R86). A count over
65535 cannot be held and is outside the domain (R11, R121; log 15). -/
def stage (bs : List Byte) (s : State) : Result :=
  if Config.pMax < s.plen.toNat + bs.length then .refused .payloadTooLarge
  else .next { s with
    pbuf := pbufBytes s.plen.toNat s ++ bs ++ s.pbuf.drop (s.plen.toNat + bs.length)
    plen := BitVec.ofNat 17 (s.plen.toNat + bs.length) }

/-! ## Responses and errors -/

/-- `send(RSP, r)`, after which the core is in `IDLE` with no response pending (R62, R82, R101). -/
def sendRsp (r : Rsp) (s : State) : State :=
  { s with rsp := s.rsp ++ [r.beat], response := none, ph := .idle }

/-- The response of an error: "`ck_a = 0`, `ck_b = 0`, `count = 0`" (R62, R128). -/
def errRsp (st : Status) : Rsp := ⟨st, 0, 0, 0⟩

/-- TAKING AN EXCEPTION: what `raise` does (R128). One response with the error's code and zeros is sent
and the core is ready for the next command; no register is saved, no mode changes, control goes
nowhere. There is no return from it: "nothing to restore" (R130). -/
def raiseError (st : Status) (s : State) : State := sendRsp (errRsp st) s

end Sys2Proof.Machine
end

