-- ==== Sys2Proof/Machine/Operands.lean ====
section
/-! DEFINITION. Operands as bytes: little-endian serialisation (R9, R107) and the pieces of a packet
(R45 to R51). -/

namespace Sys2Proof.Machine

/-- `le_bytes(v, n)`: byte `i` is `v[8i+7 : 8i]`, the least significant byte first (R9, R30). -/
def leBytes (n : Nat) {w : Nat} (v : BitVec w) : List Byte :=
  (List.range n).map fun i => v.extractLsb' (8 * i) 8

/-- `ser(k, v)`: the low `size(k)` bytes of `val`, little-endian (R107). -/
def ser (f : Field) : List Byte := leBytes f.1.bytes f.2

/-- `ser(F)`: the fields' bytes in declaration order with no padding (R107). -/
def serAll (F : List Field) : List Byte := F.flatMap ser

/-- The bytes at offsets 2 to `5 + L`, which the checksum covers: class, id, length low, length high,
payload (R50, R93). -/
def packetBody (cls id : Byte) (len : BitVec 16) (payload : List Byte) : List Byte :=
  cls :: id :: (leBytes 2 len ++ payload)

/-- A whole packet: sync bytes, body, checksum A, checksum B (R45, R96). -/
def packet (cls id : Byte) (len : BitVec 16) (payload : List Byte) : List Byte :=
  let body := packetBody cls id len payload
  [Config.sync1, Config.sync2] ++ body ++ [(fletcher8 body).1, (fletcher8 body).2]

/-- `L`, the value of the length field: 0 for a poll request, else the payload byte count (R87). -/
def lengthField (poll : Bool) (psize : Nat) : BitVec 16 := if poll then 0 else BitVec.ofNat 16 psize

end Sys2Proof.Machine
end

