-- ==== Sys2Proof/Machine/Flags.lean ====
section
/-! DEFINITION. The core has no flags (R18): the only status is the response beat. Here are the contents
of a success response (R62) and the two conditions that decide a response's `status` (R88, R80). -/

namespace Sys2Proof.Machine

/-- The response of a success: the accumulator pair and the count (R62). -/
def okRsp (count : Word) (s : State) : Rsp := ⟨.ok, s.ckA, s.ckB, count⟩

/-- The condition of `BufferTooSmall`, on natural numbers: `cap < 8 + L` (R88, R123). -/
def bufferTooSmall (cap : Word) (len : BitVec 16) : Bool := decide (cap.toNat < Config.overhead + len.toNat)

/-- The condition of `InvalidRange`: `length > blen` (R80, R124). -/
def invalidRange (length blen : Word) : Bool := decide (blen.toNat < length.toNat)

/-- `count` of a successful `BUILD`: `8 + L` (R95). -/
def packetCount (len : BitVec 16) : Word := BitVec.ofNat 32 (Config.overhead + len.toNat)

end Sys2Proof.Machine
end

