-- ==== Sys2Proof/Machine/Checksum.lean ====
section
/-! DEFINITION. The Checksum Engine: the meanings of `ACC.CLR`, `ACC.ABS`, `ACC.HOLD` (R71 to R73) and
of `CKSUM` (R78). -/

namespace Sys2Proof.Machine

/-- `ACC.CLR` (R71). -/
def execAccClr (s : State) : Result := .next (clearAcc s)

/-- `ACC.ABS d` (R72). -/
def execAccAbs (d : Byte) (s : State) : Result := .next (absorb d s)

/-- `ACC.HOLD`: "no register is written" (R73). -/
def execAccHold (s : State) : Result := .next s

/-- `for i in off ..< off + n: ACC.ABS MemRead(SRC, i, 1)` (R78). -/
def absorbRange : Nat → Nat → State → Result
  | 0, _, s => .next s
  | n + 1, off, s =>
    match readSrc off s with
    | .ok b => absorbRange n (off + 1) (absorb b s)
    | .error r => .refused r

/-- Command intake of a `CKSUM`: the registers it loads (R82). -/
def latchCksum (length blen : Word) (s : State) : State :=
  { s with op := .cksum, cnt := length, cap := blen, off := 0 }

/-- `CKSUM length, blen` as one transition (R78): the range check, then the fold over `SRC[0 ..< length]`
and the response. The working registers end as the reference sequencer leaves them (R23, R82; log 16). -/
def execCksum (length blen : Word) (s : State) : Result :=
  let s := latchCksum length blen s
  if invalidRange length blen then .next (raiseError .invalidRange s)
  else andThen (absorbRange length.toNat 0 (clearAcc s)) fun t =>
    .next (sendRsp (okRsp length t) { t with off := length })

end Sys2Proof.Machine
end

