-- ==== Sys2Proof/Machine/Fields.lean ====
section
/-! DEFINITION. The meanings of the nine field kinds (R108 to R116): each stages its value's bytes. -/

namespace Sys2Proof.Machine

/-- `FLD.U8 v`: `PBUF[PLEN] <- val[7:0]; PLEN <- PLEN + 1` (R108). -/
def execFldU8 (v : BitVec 8) (s : State) : Result := stage (leBytes 1 v) s

/-- `FLD.I8 v`: the bit pattern as it is (R109). -/
def execFldI8 (v : BitVec 8) (s : State) : Result := stage (leBytes 1 v) s

/-- `FLD.RAW v` (R110). -/
def execFldRaw (v : BitVec 8) (s : State) : Result := stage (leBytes 1 v) s

/-- `FLD.U16 v`: low byte first (R111). -/
def execFldU16 (v : BitVec 16) (s : State) : Result := stage (leBytes 2 v) s

/-- `FLD.I16 v` (R112). -/
def execFldI16 (v : BitVec 16) (s : State) : Result := stage (leBytes 2 v) s

/-- `FLD.U32 v` (R113). -/
def execFldU32 (v : BitVec 32) (s : State) : Result := stage (leBytes 4 v) s

/-- `FLD.I32 v` (R114). -/
def execFldI32 (v : BitVec 32) (s : State) : Result := stage (leBytes 4 v) s

/-- `FLD.F32 v`: "the pattern is copied, not computed on" (R115, R120). -/
def execFldF32 (v : BitVec 32) (s : State) : Result := stage (leBytes 4 v) s

/-- `FLD.F64 v` (R116, R120). -/
def execFldF64 (v : BitVec 64) (s : State) : Result := stage (leBytes 8 v) s

/-- The meaning of a field as field intake runs it: the one `exec` gives the instruction
`Instr.ofField`, which Dispatch.lean cannot give here yet. -/
def runField : Field → State → Result
  | (.u8, v), s => execFldU8 (v.extractLsb' 0 8) s
  | (.i8, v), s => execFldI8 (v.extractLsb' 0 8) s
  | (.raw, v), s => execFldRaw (v.extractLsb' 0 8) s
  | (.u16, v), s => execFldU16 (v.extractLsb' 0 16) s
  | (.i16, v), s => execFldI16 (v.extractLsb' 0 16) s
  | (.u32, v), s => execFldU32 (v.extractLsb' 0 32) s
  | (.i32, v), s => execFldI32 (v.extractLsb' 0 32) s
  | (.f32, v), s => execFldF32 (v.extractLsb' 0 32) s
  | (.f64, v), s => execFldF64 v s

/-- One `FLD` beat, already off the channel, taken by a `BUILD`: `NFR <- NFR - 1` and the field is
staged; a reserved kind is refused (R65, R86, R101). -/
def takeBeat (w : FldBeat) (s : State) : Result :=
  match decodeFld w with
  | .ok f => runField f { s with nfr := s.nfr - 1 }
  | .error e => .refused (refusalOf e)

end Sys2Proof.Machine
end

