-- ==== Sys2Proof/Machine/Packet.lean ====
section
/-! DEFINITION. The Packet Builder: the meaning of `BUILD` (R86 to R96). -/

namespace Sys2Proof.Machine

/-- Command intake of a `BUILD`: the registers it loads (R86, R101). -/
def latchBuild (cap nf : Word) (cls id : Byte) (poll : Bool) (s : State) : State :=
  { s with op := .build, cls := cls, idb := id, poll := poll, cap := cap, nfr := nf, plen := 0, ph := .load }

/-- Field intake (R86): while `NFR > 0` and a beat is there, take it. Where the beats run out first the
core is left waiting in `LOAD` (R153; log 10). -/
def intake : List FldBeat → State → Result
  | [], s => .next { s with fld := [] }
  | w :: ws, s =>
    if s.nfr = 0 then .next { s with fld := w :: ws }
    else andThen (takeBeat w s) (intake ws)

/-- Length determination, `LEN <- if POLL = 1 then 0 else PLEN` (R87); a count over 65535 is never
truncated (R121). -/
def determineLength (s : State) : Result :=
  if Config.pMax < s.plen.toNat then .refused .payloadTooLarge
  else .next { s with len := lengthField s.poll s.plen.toNat }

/-- Steps 1 to 7 of the source and the return (R89 to R95), the capacity check having passed: the
checksum of the body, the packet's bytes at ascending offsets, the response. -/
def writePacket (s : State) : Result :=
  let body := packetBody s.cls s.idb s.len (pbufBytes s.len.toNat s)
  let s := absorbAll body (clearAcc s)
  andThen (writeDstBytes 0 ([Config.sync1, Config.sync2] ++ body ++ [s.ckA, s.ckB]) s) fun t =>
    .next (sendRsp (okRsp (packetCount t.len) t) { t with off := packetCount t.len })

/-- What follows field intake (R87, R88, R96): the length, "before any write" the capacity check, the packet. -/
def finishBuild (s : State) : Result :=
  andThen (determineLength s) fun s =>
    if bufferTooSmall s.cap s.len then .next (raiseError .bufferTooSmall s) else writePacket s

/-- `BUILD cap, cls, id, poll` with its `nf` fields on the `FLD` channel, as one transition (R96). All
`nf` beats are taken first, "whether `poll` is 0 or 1 and whether or not the operation will end in
`BufferTooSmall`" (R86, R139). With fewer beats there the core waits in `LOAD`, no response sent and no
byte of `DST` written (R153, U8). -/
def execBuild (cap nf : Word) (cls id : Byte) (poll : Bool) (s : State) : Result :=
  andThen (intake s.fld (latchBuild cap nf cls id poll s)) fun t =>
    if t.nfr = 0 then finishBuild t else .next t

end Sys2Proof.Machine
end

