-- ==== Sys2Proof/Machine/Dispatch.lean ====
section
/-! DEFINITION. One arm per instruction (R56): the meaning each is given. -/

namespace Sys2Proof.Machine

-- The host operations, the accumulator micro-operations and the field kinds, in the order of R56.
def exec (i : Instr) (s : State) : Host.Outcome State Fault Refusal :=
  match i with
  | .cksum length blen => Sys2Proof.Machine.execCksum length blen s
  | .build cap nf cls id poll => Sys2Proof.Machine.execBuild cap nf cls id poll s
  | .accClr => Sys2Proof.Machine.execAccClr s
  | .accAbs d => Sys2Proof.Machine.execAccAbs d s
  | .accHold => Sys2Proof.Machine.execAccHold s
  | .fldU8 v => Sys2Proof.Machine.execFldU8 v s
  | .fldI8 v => Sys2Proof.Machine.execFldI8 v s
  | .fldRaw v => Sys2Proof.Machine.execFldRaw v s
  | .fldU16 v => Sys2Proof.Machine.execFldU16 v s
  | .fldI16 v => Sys2Proof.Machine.execFldI16 v s
  | .fldU32 v => Sys2Proof.Machine.execFldU32 v s
  | .fldI32 v => Sys2Proof.Machine.execFldI32 v s
  | .fldF32 v => Sys2Proof.Machine.execFldF32 v s
  | .fldF64 v => Sys2Proof.Machine.execFldF64 v s

end Sys2Proof.Machine
end

