-- ==== Sys2Proof/Machine/Fetch.lean ====
section
/-! DEFINITION. Where the machine finds its next instruction (R16, R69, R136): a word on the `ACC` input,
in `IDLE` the next `CMD` beat, in `LOAD` the next `FLD` beat; and the placing of a word there. -/

namespace Sys2Proof.Machine

/-- Take the next command; "a command beat is taken only when `PH = IDLE`" (R136). -/
def fetchCommand (s : State) : Fetched :=
  match s.cmd with
  | [] => .wait
  | w :: ws =>
    match decodeCmd w with
    | .ok c => .run (Instr.ofCommand c) { s with cmd := ws }
    | .error e => .reserved e

/-- Take the next field beat of the running `BUILD`, if it has one to take (R86, R101). -/
def fetchField (s : State) : Fetched :=
  if s.nfr = 0 then .sequence
  else
    match s.fld with
    | [] => .wait
    | w :: ws =>
      match decodeFld w with
      | .ok f => .run (Instr.ofField f) { s with fld := ws, nfr := s.nfr - 1 }
      | .error e => .reserved e

/-- What the machine does next: a word standing on the `ACC` input first (log 2), else by the phase. -/
def fetch (s : State) : Fetched :=
  match s.acc with
  | some w => .run (Instr.ofAccOp (decodeAcc w)) { s with acc := none }
  | none =>
    match s.ph with
    | .idle => fetchCommand s
    | .load => fetchField s
    | .check => .sequence
    | .sync1 => .sequence
    | .sync2 => .sequence
    | .cls => .sequence
    | .idb => .sequence
    | .lenLo => .sequence
    | .lenHi => .sequence
    | .payload => .sequence
    | .cka => .sequence
    | .ckb => .sequence
    | .range => .sequence
    | .resp => .sequence

/-- A bundle placed so that `fetch` takes exactly it (log 13): a command at the head of `CMD` with the
core in `IDLE`; a field at the head of `FLD` with a `BUILD` in `LOAD` that has a beat to take; a control
word on the `ACC` input. -/
def placeBundle (b : Bundle) (s : State) : State :=
  match b with
  | .cmd w => { s with cmd := w :: s.cmd, ph := .idle, acc := none }
  | .fld w => { s with
      fld := w :: s.fld, ph := .load, op := .build, acc := none
      nfr := if s.nfr = 0 then 1 else s.nfr }
  | .acc w => { s with acc := some w }

end Sys2Proof.Machine
end

