-- ==== Sys2Proof/Machine/Sequencer.lean ====
section
/-! DEFINITION. The reference sequencer: one step of `CKSUM` (R82) and of `BUILD` (R101), phase by phase.
Each step drives one `ACC` word, which the accumulator executes in that step (R61, R70). -/

namespace Sys2Proof.Machine

/-- The accumulator executes one control word (R61, R70). -/
def driveAcc (w : AccWord) (s : State) : State :=
  match decodeAcc w with
  | .clr => clearAcc s
  | .abs d => absorb d s
  | .hold => s

/-- The words the core's drivers issue; "never `clr = 1` with `en = 1`" (R61). -/
def accClrWord : AccWord := accBundle true false 0

/-- The word of `ACC.ABS d` (R61). -/
def accAbsWord (d : Byte) : AccWord := accBundle false true d

/-- The word of `ACC.HOLD` (R61). -/
def accHoldWord : AccWord := accBundle false false 0

/-- A line of R101 that writes one byte: the byte to `DST`, the `ACC` word, `OFF` and `PH`. -/
def seqWrite (off : Nat) (b : Byte) (w : AccWord) (off' : Word) (ph : Phase) (s : State) : Result :=
  andThen (writeDst off b s) fun t => .next { driveAcc w t with off := off', ph := ph }

/-- Command intake of the sequencer, the beat already off the channel (R82, R101). -/
def seqCommand : Command → State → Result
  | .cksum length blen, s => .next { latchCksum length blen s with ph := .check }
  | .build cap nf cls id poll, s => .next (latchBuild cap nf cls id poll s)

/-- `IDLE`: take a `CMD` beat, or wait for one. -/
def seqIdle (s : State) : Result :=
  match s.cmd with
  | [] => .next s
  | w :: ws =>
    match decodeCmd w with
    | .ok c => seqCommand c { s with cmd := ws }
    | .error e => .refused (refusalOf e)

/-- `LOAD`: take one `FLD` beat, or wait for one; when none is left to take, determine `LEN`. -/
def seqLoad (s : State) : Result :=
  if s.nfr = 0 then andThen (determineLength s) fun t => .next { t with ph := .check }
  else
    match s.fld with
    | [] => .next s
    | w :: ws => takeBeat w { s with fld := ws }

/-- `CHECK`: the range check of a `CKSUM`, the capacity check of a `BUILD`. -/
def seqCheck (s : State) : Result :=
  match s.op with
  | .cksum =>
    if invalidRange s.cnt s.cap then .next { s with response := some (errRsp .invalidRange), ph := .resp }
    else .next { driveAcc accClrWord s with ph := .range }
  | .build =>
    if bufferTooSmall s.cap s.len then .next { s with response := some (errRsp .bufferTooSmall), ph := .resp }
    else .next { s with off := 0, ph := .sync1 }
  | .none => .fault .sequencerOffWalk

/-- `PAYLOAD`: one staged byte. -/
def seqPayload (s : State) : Result :=
  if s.off.toNat < 6 then .fault .sequencerOffWalk
  else
    let b := pbufRead s (s.off.toNat - 6)
    let off' := s.off + 1
    seqWrite s.off.toNat b (accAbsWord b) off' (if off'.toNat = 6 + s.len.toNat then .cka else .payload) s

/-- `RANGE`: absorb one byte of `SRC`, or form the response at the end of the range. -/
def seqRange (s : State) : Result :=
  if s.off.toNat < s.cnt.toNat then
    match readSrc s.off.toNat s with
    | .ok b => .next { driveAcc (accAbsWord b) s with off := s.off + 1 }
    | .error r => .refused r
  else .next { s with response := some (okRsp s.cnt s), ph := .resp }

/-- `CKB`: the last byte of the packet, and the response. -/
def seqCkb (s : State) : Result :=
  andThen (seqWrite (7 + s.len.toNat) s.ckB accHoldWord (packetCount s.len) .resp s) fun t =>
    .next { t with response := some (okRsp (packetCount t.len) t) }

/-- `RESP`: send the response. -/
def seqResp (s : State) : Result :=
  match s.response with
  | some r => .next (sendRsp r s)
  | none => .fault .sequencerOffWalk

/-- One step of the reference sequencer (R82, R101). -/
def seqStep (s : State) : Result :=
  match s.ph with
  | .idle => seqIdle s
  | .load => seqLoad s
  | .check => seqCheck s
  | .sync1 => seqWrite 0 Config.sync1 accHoldWord 1 .sync2 s
  | .sync2 => seqWrite 1 Config.sync2 accClrWord 2 .cls s
  | .cls => seqWrite 2 s.cls (accAbsWord s.cls) 3 .idb s
  | .idb => seqWrite 3 s.idb (accAbsWord s.idb) 4 .lenLo s
  | .lenLo => seqWrite 4 (s.len.extractLsb' 0 8) (accAbsWord (s.len.extractLsb' 0 8)) 5 .lenHi s
  | .lenHi => seqWrite 5 (s.len.extractLsb' 8 8) (accAbsWord (s.len.extractLsb' 8 8)) 6 (if s.len = 0 then .cka else .payload) s
  | .payload => seqPayload s
  | .cka => seqWrite (6 + s.len.toNat) s.ckA accHoldWord (BitVec.ofNat 32 (7 + s.len.toNat)) .ckb s
  | .ckb => seqCkb s
  | .range => seqRange s
  | .resp => seqResp s

/-- `k` steps of the reference sequencer, stopping at a fault or a refusal. -/
abbrev seqRun : Nat → State → Result := iterate seqStep

end Sys2Proof.Machine
end

