-- ==== Sys2Proof/Machine/Step.lean ====
section
/-! DEFINITION. One step of the machine. An operation whose beats are all there is one atomic transition,
the normative level (R2, R17, D1); inside an operation the step is the reference sequencer's (log 1). -/

namespace Sys2Proof.Machine

/-- Fetch, decode, run; wait where no beat is there to take; go on along the reference sequencer inside
an operation. -/
def step (s : State) : Host.Outcome State Fault Refusal :=
  match fetch s with
  | .wait => .next s
  | .run i t => exec i t
  | .reserved e => .refused (refusalOf e)
  | .sequence => seqStep s

/-- The state with a word of the opcode table where `step` takes its next instruction (log 12, log 13). -/
def State.withFetchWord (s : State) (nbits w : Nat) : State := placeBundle (bundleOfTableWord nbits w) s

end Sys2Proof.Machine
end

