-- ==== Sys2Proof/Machine/Environment.lean ====
section
/-! DEFINITION. What the host does to the core between its steps: beats, bindings, its own memory and
`rst` (R8, R57, R140 to R145). -/

namespace Sys2Proof.Machine

/-- Send a command beat; the host "may queue commands on `CMD` without waiting" (R148). -/
def sendCmd (w : CmdBeat) (s : State) : State := { s with cmd := s.cmd ++ [w] }

/-- Send a field beat (R145: before, with or after its command). -/
def sendFld (w : FldBeat) (s : State) : State := { s with fld := s.fld ++ [w] }

/-- Receive the oldest response, if there is one (R57, R62). -/
def recvRsp (s : State) : Option RspBeat × State :=
  match s.rsp with
  | [] => (none, s)
  | r :: rs => (some r, { s with rsp := rs })

/-- Bind the `SRC` port to a buffer (R63, R145). DESIGN CHOICE (log 25): the binding serves every access
from then on, also of a command already sent. -/
def bindSrc (p : Port) (s : State) : State := { s with src := p }

/-- Bind the `DST` port to a buffer (R64, R145). DESIGN CHOICE (log 25): the binding serves every access
from then on, also of a command already sent and of a `BUILD` already taken. -/
def bindDst (p : Port) (s : State) : State := { s with dst := p }

/-- The host stores a byte in its own memory (R8, R37). -/
def hostWrite (a : Nat) (b : Byte) (s : State) : State := { s with mem := s.mem.write a b }

/-- `rst`: registers take their reset values, the three channels are emptied, no response is sent for an
operation that was running, and "reset does not touch `SRC` or `DST`" (R140 to R142); the bindings stay
(log 18). What `PBUF` holds is unspecified anew (R22; log 7). -/
def rst (s : State) : State :=
  { State.reset with mem := s.mem, src := s.src, dst := s.dst, epoch := s.epoch + 1, seed := s.seed }

/-- The host's actions. -/
inductive HostAction where
  | sendCmd (w : CmdBeat)
  | sendFld (w : FldBeat)
  | recvRsp
  | bindSrc (p : Port)
  | bindDst (p : Port)
  | write (a : Nat) (b : Byte)
  | rst
  deriving DecidableEq, Repr

/-- The state after a host action. -/
def hostAct : HostAction → State → State
  | .sendCmd w, s => sendCmd w s
  | .sendFld w, s => sendFld w s
  | .recvRsp, s => (recvRsp s).2
  | .bindSrc p, s => bindSrc p s
  | .bindDst p, s => bindDst p s
  | .write a b, s => hostWrite a b s
  | .rst, s => rst s

end Sys2Proof.Machine
end

