-- ==== Sys2Proof/Machine/System.lean ====
section
/-! DEFINITION. `N_INST` core instances over one host memory (R6, R41, R137, U17; log 14), and what the
instances and the host do to them (R7): each instance has its own registers, staging, channels and ports;
only the memory behind the ports is common. -/

namespace Sys2Proof.Machine

/-- Instances and the memory their ports reach. An instance's own `mem` field is not used here: the
memory is held once, in `mem`. -/
structure System where
  cores : List State
  mem   : Memory
  deriving DecidableEq, Repr

/-- `n` instances right after reset. Each has a free value of its own (`seed`), so that nothing is said of
whether the unspecified `PBUF` bytes of two instances agree (R22, R137, U14; log 7). -/
def System.reset (n : Nat := Config.nInst) : System :=
  ⟨(List.range n).map fun i => { State.reset with seed := i }, []⟩

/-- An instance as one core: its state over the common memory. -/
def System.view (y : System) (c : State) : State := { c with mem := y.mem }

/-- Instance `j` left in a state, with the memory that goes with it. -/
def System.put (y : System) (j : Nat) (t : State) : System := ⟨y.cores.set j { t with mem := [] }, t.mem⟩

/-- Instance `j` makes one step; the others do nothing ("no inter-instance signal", R137). -/
def System.stepAt (j : Nat) (y : System) : Host.Outcome System Fault Refusal :=
  match y.cores[j]? with
  | none => .next y
  | some c =>
    match step (y.view c) with
    | .next t => .next (y.put j t)
    | .fault r => .fault r
    | .refused r => .refused r

/-- The host acts on instance `j`: it sends it a beat, receives from it, binds its ports, resets it, or
stores to the memory they share (R8, R57, R137, R140, R145). -/
def System.hostActAt (j : Nat) (h : HostAction) (y : System) : System :=
  match y.cores[j]? with
  | none => y
  | some c => y.put j (hostAct h (y.view c))

/-- The response beat the host receives next from instance `j`, if there is one (R57, R62). -/
def System.nextRsp (j : Nat) (y : System) : Option RspBeat :=
  match y.cores[j]? with
  | none => none
  | some c => (recvRsp c).1

/-- What happens in a system: an instance makes a step, or the host acts on one. -/
inductive SystemAction where
  | step (j : Nat)
  | host (j : Nat) (h : HostAction)
  deriving DecidableEq, Repr

/-- The outcome of one action. -/
def System.act : SystemAction → System → Host.Outcome System Fault Refusal
  | .step j, y => y.stepAt j
  | .host j h, y => .next (y.hostActAt j h)

/-- A run of a system: its actions in the order in which they happen, which the spec leaves open (R41). -/
def System.run : List SystemAction → System → Host.Outcome System Fault Refusal
  | [], y => .next y
  | a :: as, y =>
    match y.act a with
    | .next z => z.run as
    | .fault r => .fault r
    | .refused r => .refused r

end Sys2Proof.Machine
end

