-- ==== Sys2Proof/Safety.lean ====
section
/-! DEFINITION. What a legal state is, the invariant every step keeps, and the runs that statements speak
of. -/

namespace Sys2Proof.Machine

/-- `LEN` is what R87 makes of the staged payload, and intake is over. -/
def LengthSet (s : State) : Prop := s.nfr = 0 ∧ s.len = lengthField s.poll s.plen.toNat

/-- The framer is writing the packet: the capacity check has passed (R88) and the next offset is `o`. -/
def Framing (o : Nat) (s : State) : Prop :=
  s.op = .build ∧ s.response = none ∧ LengthSet s ∧ bufferTooSmall s.cap s.len = false ∧ s.off.toNat = o

/-- What the registers hold in each phase of the fixed walk of R82 and R101. -/
def PhaseLegal (s : State) : Prop :=
  match s.ph with
  | .idle => s.response = none
  | .load => s.op = .build ∧ s.response = none
  | .check => s.response = none ∧ ((s.op = .cksum ∧ s.off = 0) ∨ (s.op = .build ∧ LengthSet s))
  | .sync1 => Framing 0 s
  | .sync2 => Framing 1 s
  | .cls => Framing 2 s
  | .idb => Framing 3 s
  | .lenLo => Framing 4 s
  | .lenHi => Framing 5 s
  | .payload => Framing s.off.toNat s ∧ 6 ≤ s.off.toNat ∧ s.off.toNat < 6 + s.len.toNat
  | .cka => Framing (6 + s.len.toNat) s
  | .ckb => Framing (7 + s.len.toNat) s
  | .range => s.op = .cksum ∧ s.response = none ∧ invalidRange s.cnt s.cap = false ∧ s.off.toNat ≤ s.cnt.toNat
  | .resp => s.op ≠ .none ∧ s.response.isSome

/-- The invariant: memory in canonical form, `PLEN` at most 65535 (R11) and within what has been staged,
`PBUF` no longer than its 65535 bytes (R11), and registers as the walk leaves them. -/
def Inv (s : State) : Prop :=
  s.mem.wf = true ∧ s.plen.toNat ≤ Config.pMax ∧ s.plen.toNat ≤ s.pbuf.length ∧
    s.pbuf.length ≤ Config.pMax ∧ PhaseLegal s

/-- The invariant of a system: of every instance, and of the memory they share. -/
def System.Inv (y : System) : Prop := y.mem.wf = true ∧ ∀ c ∈ y.cores, Machine.Inv c

/-- A safe step: it does not fault. -/
def SafeStep (s : State) : Prop := ∀ r, step s ≠ .fault r

/-- Run instructions one after another, stopping at a fault or a refusal. -/
def execAll : List Instr → State → Result
  | [], s => .next s
  | i :: is, s => andThen (exec i s) (execAll is)

/-- `k` steps, stopping at a fault or a refusal; the host does nothing in between. -/
abbrev stepRun : Nat → State → Result := iterate step

/-- Commands under way: 0 in `IDLE`, 1 in any other phase (R136). -/
def underWay (s : State) : Nat := if s.ph = .idle then 0 else 1

/-- A core that has ended: `PH = IDLE` and `CMD` is empty (R155). -/
def Ended (s : State) : Prop := s.ph = .idle ∧ s.cmd = []

/-- A stuck core (R138, R153): it waits in `LOAD` for a beat that is not there. It "has not ended" (R155). -/
def Stuck (s : State) : Prop := s.ph = .load ∧ s.nfr ≠ 0 ∧ s.fld = []

/-- `t` is the end of a run of the core's steps from `s` (R155): `PH = IDLE`, `CMD` is empty, and every
command that was waiting or under way in `s` has had its response. -/
def EndOfRun (s t : State) : Prop :=
  Ended t ∧ t.rsp.length = s.rsp.length + underWay s + s.cmd.length

/-- The packet a `BUILD` with these operands and fields puts in `DST` (R96). -/
def packetOf (cls id : Byte) (poll : Bool) (F : List Field) : List Byte :=
  packet cls id (lengthField poll (payloadSize F)) (if poll then [] else serAll F)

/-- The number of bytes of that packet, `8 + L` (R51). -/
def packetSize (poll : Bool) (F : List Field) : Nat := Config.overhead + if poll then 0 else payloadSize F

end Sys2Proof.Machine
end

