-- ==== Sys2Proof/Certificates/Slice0/Obligations.lean ====
section
/-! DEFINITION. The statements for the provers. OBLIGATIONS.json says of each which rules of the spec it
formalises. Where a clause rests on a choice of the model, its docstring names the log entry. -/

open Sys2Proof Sys2Proof.Machine

/-! ## Encodings -/

/-- Decoding an encoded instruction gives it back, with every operand at every value. -/
def Obligations.DecodeEncodeRoundTrip : Prop := ∀ i : Instr, decode (encode i) = .ok i

/-- R69: an encoding selects the row of the opcode table with `w AND mask = match`, within its format;
each row's condition is exactly when the decoder gives that row's instruction. -/
def Obligations.EachTableRowSelectsItsInstruction : Prop :=
  (∀ w : CmdBeat,
    (w.toNat &&& 0x3 = 0x1 ↔ ∃ l b, decode (.cmd w) = .ok (.cksum l b)) ∧
    (w.toNat &&& 0x3 = 0x2 ↔ ∃ c n k i p, decode (.cmd w) = .ok (.build c n k i p))) ∧
  (∀ w : AccWord,
    (w.toNat &&& 0x200 = 0x200 ↔ decode (.acc w) = .ok .accClr) ∧
    (w.toNat &&& 0x300 = 0x100 ↔ ∃ d, decode (.acc w) = .ok (.accAbs d)) ∧
    (w.toNat &&& 0x300 = 0x000 ↔ decode (.acc w) = .ok .accHold)) ∧
  (∀ w : FldBeat,
    (w.toNat &&& 0xF = 0x0 ↔ ∃ v, decode (.fld w) = .ok (.fldU8 v)) ∧
    (w.toNat &&& 0xF = 0x1 ↔ ∃ v, decode (.fld w) = .ok (.fldI8 v)) ∧
    (w.toNat &&& 0xF = 0x2 ↔ ∃ v, decode (.fld w) = .ok (.fldRaw v)) ∧
    (w.toNat &&& 0xF = 0x3 ↔ ∃ v, decode (.fld w) = .ok (.fldU16 v)) ∧
    (w.toNat &&& 0xF = 0x4 ↔ ∃ v, decode (.fld w) = .ok (.fldI16 v)) ∧
    (w.toNat &&& 0xF = 0x5 ↔ ∃ v, decode (.fld w) = .ok (.fldU32 v)) ∧
    (w.toNat &&& 0xF = 0x6 ↔ ∃ v, decode (.fld w) = .ok (.fldI32 v)) ∧
    (w.toNat &&& 0xF = 0x7 ↔ ∃ v, decode (.fld w) = .ok (.fldF32 v)) ∧
    (w.toNat &&& 0xF = 0x8 ↔ ∃ v, decode (.fld w) = .ok (.fldF64 v)))

/-- R58, R59: where the operands of a command lie, as arithmetic on the bundle read as one number. -/
def Obligations.CommandOperandsByBitPosition : Prop :=
  ∀ w : CmdBeat,
    (w.toNat % 4 = 1 → decode (.cmd w) =
      .ok (.cksum (BitVec.ofNat 32 (w.toNat / 2 ^ 19)) (BitVec.ofNat 32 (w.toNat / 2 ^ 51)))) ∧
    (w.toNat % 4 = 2 → decode (.cmd w) =
      .ok (.build (BitVec.ofNat 32 (w.toNat / 2 ^ 19)) (BitVec.ofNat 32 (w.toNat / 2 ^ 51))
        (BitVec.ofNat 8 (w.toNat / 2 ^ 3)) (BitVec.ofNat 8 (w.toNat / 2 ^ 11)) (decide (w.toNat / 4 % 2 = 1))))

/-- R66: bits that a bundle's operation ignores change nothing in what it decodes to. -/
def Obligations.IgnoredBitsHaveNoEffect : Prop :=
  (∀ w w' : CmdBeat, cmdOp w = 1 → cmdOp w' = 1 → (∀ n, 19 ≤ n → w.getLsbD n = w'.getLsbD n) →
    decode (.cmd w) = decode (.cmd w')) ∧
  (∀ (w w' : FldBeat) (k : FieldKind), FieldKind.ofCode (fldKind w) = some k →
    (∀ n, n < 4 + 8 * k.bytes → w.getLsbD n = w'.getLsbD n) → decode (.fld w) = decode (.fld w')) ∧
  (∀ w w' : AccWord, accClrBit w = true → accClrBit w' = true → decode (.acc w) = decode (.acc w')) ∧
  (∀ w w' : AccWord, accClrBit w = false → accEnBit w = false → accClrBit w' = false → accEnBit w' = false →
    decode (.acc w) = decode (.acc w'))

/-- Words written out from R58 to R61 (vectors V-C9, V-B1, V-B2, V-A3, V-A6, V-A12, V-F6, V-F12). -/
def Obligations.WrittenWordsDecode : Prop :=
  decode (.cmd 0x000000020000000200001) = .ok (.cksum 4 4) ∧
  decode (.cmd 0x00000003800000120100A) = .ok (.build 36 7 0x01 0x02 false) ∧
  decode (.cmd 0x000000008000000400036) = .ok (.build 8 1 0x06 0x00 true) ∧
  decode (.acc 0x3FF) = .ok .accClr ∧
  decode (.acc 0x11C) = .ok (.accAbs 0x1C) ∧
  decode (.acc 0x055) = .ok .accHold ∧
  decode (.fld 0x00000000000012343) = .ok (.fldU16 0x1234) ∧
  decode (.fld 0xC0000000000000008) = .ok (.fldF64 0xC000000000000000)

/-- R62: the layout of the `RSP` bundle as arithmetic; R65: `status` 3 is never in one. -/
def Obligations.ResponseBundleLayout : Prop :=
  ∀ r : Rsp, r.beat.toNat = r.status.code.toNat + 4 * r.ckA.toNat + 1024 * r.ckB.toNat + 262144 * r.count.toNat ∧
    r.beat.toNat % 4 ≠ 3

/-- R65, R127: a reserved code is refused: `op` 0 or 3 before any operand is looked at, `kind` 9 to 15
when the beat is taken, one at a time in `LOAD` or by a `BUILD`, whatever the capacity. -/
def Obligations.ReservedCodesAreRefused : Prop :=
  (∀ (s : State) (w : CmdBeat) (ws : List CmdBeat), s.acc = none → s.ph = .idle → s.cmd = w :: ws →
    (w.toNat % 4 = 0 ∨ w.toNat % 4 = 3) → step s = .refused (.reservedOp (cmdOp w))) ∧
  (∀ (s : State) (w : FldBeat) (ws : List FldBeat), s.acc = none → s.ph = .load → s.nfr ≠ 0 → s.fld = w :: ws →
    9 ≤ w.toNat % 16 → step s = .refused (.reservedKind (fldKind w))) ∧
  (∀ (s : State) (cap nf : Word) (cls id : Byte) (poll : Bool) (F : List Field) (w : FldBeat) (ws : List FldBeat),
    s.fld = F.map Field.beat ++ w :: ws → F.length < nf.toNat → payloadSize F ≤ 65535 → 9 ≤ w.toNat % 16 →
    exec (.build cap nf cls id poll) s = .refused (.reservedKind (fldKind w)))

/-! ## The accumulator -/

/-- R71. -/
def Obligations.AccClearZeroesBothSums : Prop :=
  (∀ s : State, exec .accClr s = .next { s with ckA := 0, ckB := 0 }) ∧
  ∀ w : AccWord, w.getLsbD 9 = true → decode (.acc w) = .ok .accClr

/-- R72. -/
def Obligations.AccAbsorbAddsModulo256 : Prop :=
  (∀ (s : State) (d : Byte), ∃ t, exec (.accAbs d) s = .next t ∧
    t = { s with ckA := t.ckA, ckB := t.ckB } ∧
    t.ckA.toNat = (s.ckA.toNat + d.toNat) % 256 ∧
    t.ckB.toNat = (s.ckB.toNat + t.ckA.toNat) % 256) ∧
  ∀ w : AccWord, w.getLsbD 9 = false → w.getLsbD 8 = true →
    decode (.acc w) = .ok (.accAbs (BitVec.ofNat 8 w.toNat))

/-- R73. -/
def Obligations.AccHoldKeepsEverything : Prop :=
  (∀ s : State, exec .accHold s = .next s) ∧
  ∀ w : AccWord, w.getLsbD 9 = false → w.getLsbD 8 = false → decode (.acc w) = .ok .accHold

/-- R74: `fletcher8` is `ACC.CLR` and then one `ACC.ABS` for each byte, from any state. -/
def Obligations.FletcherIsClearThenAbsorbEach : Prop :=
  (∀ (s : State) (bs : List Byte), execAll (.accClr :: bs.map .accAbs) s =
    .next { s with ckA := (fletcher8 bs).1, ckB := (fletcher8 bs).2 }) ∧
  fletcher8 [] = (0, 0) ∧ ∀ x : Byte, fletcher8 [x] = (x, x)

/-- R75 (a) to (g): closed form, append, concatenation, the order example, the wrap example, zero bytes. -/
def Obligations.FletcherArithmeticLaws : Prop :=
  (∀ s : List Byte, (fletcher8 s).1.toNat = (s.map BitVec.toNat).sum % 256 ∧
    (fletcher8 s).2.toNat =
      ((List.range s.length).map fun i => (s.length - i) * (s.getD i 0).toNat).sum % 256) ∧
  (∀ (s : List Byte) (d : Byte), fletcher8 (s ++ [d]) =
    ((fletcher8 s).1 + d, (fletcher8 s).2 + (fletcher8 s).1 + d)) ∧
  (∀ s t : List Byte,
    (fletcher8 (s ++ t)).1.toNat = ((fletcher8 s).1.toNat + (fletcher8 t).1.toNat) % 256 ∧
    (fletcher8 (s ++ t)).2.toNat =
      ((fletcher8 s).2.toNat + t.length * (fletcher8 s).1.toNat + (fletcher8 t).2.toNat) % 256) ∧
  (fletcher8 [1, 2] = (3, 4) ∧ fletcher8 [2, 1] = (3, 5)) ∧
  fletcher8 (List.replicate 256 1) = (0, 128) ∧
  ∀ (s : List Byte) (k : Nat), (fletcher8 (s ++ List.replicate k 0)).1 = (fletcher8 s).1 ∧
    (fletcher8 (s ++ List.replicate k 0)).2.toNat =
      ((fletcher8 s).2.toNat + k * (fletcher8 s).1.toNat) % 256

/-! ## CKSUM -/

/-- R78: where `length <= blen` the result is `fletcher8` of the range, in the accumulator and in the one
response; where `length > blen`, `InvalidRange`, and the accumulator is as it was. Of the rest only the
working registers that R82 loads may differ, and memory is as it was. The buffer really bound holds the
range (R152). -/
def Obligations.CksumIsOneAtomicTransition : Prop :=
  ∀ (s : State) (length blen : Word),
    (length.toNat ≤ blen.toNat → length.toNat ≤ s.src.size →
      ∃ t, exec (.cksum length blen) s = .next t ∧ t = { s with
        op := t.op, cnt := t.cnt, cap := t.cap, off := t.off, ph := .idle, response := none
        ckA := (fletcher8 (srcBytes length.toNat s)).1
        ckB := (fletcher8 (srcBytes length.toNat s)).2
        rsp := s.rsp ++ [Rsp.beat ⟨.ok, (fletcher8 (srcBytes length.toNat s)).1,
          (fletcher8 (srcBytes length.toNat s)).2, length⟩] }) ∧
    (blen.toNat < length.toNat →
      ∃ t, exec (.cksum length blen) s = .next t ∧ t = { s with
        op := t.op, cnt := t.cnt, cap := t.cap, off := t.off, ph := .idle, response := none
        rsp := s.rsp ++ [Rsp.beat ⟨.invalidRange, 0, 0, 0⟩] })

/-- R80: `InvalidRange` whatever is bound to `SRC` (nothing is read), with the accumulator and memory as
they were, zeros in the response, and the core ready for the next command. -/
def Obligations.InvalidRangeComputesNothing : Prop :=
  ∀ (s : State) (length blen : Word), blen.toNat < length.toNat →
    ∃ t, exec (.cksum length blen) s = .next t ∧ t.ckA = s.ckA ∧ t.ckB = s.ckB ∧ t.mem = s.mem ∧
      t.rsp = s.rsp ++ [2] ∧ t.ph = .idle ∧ t.response = none ∧ t.cmd = s.cmd ∧ t.fld = s.fld

/-- R26, R76, R79 (c), R143: the result depends on the bytes `SRC[0 ..< length]` alone: not on the bytes
beyond, nor on any register, nor on what the accumulator held. -/
def Obligations.CksumDependsOnItsRangeOnly : Prop :=
  ∀ (s s' : State) (length blen blen' : Word),
    length.toNat ≤ blen.toNat → length.toNat ≤ blen'.toNat →
    length.toNat ≤ s.src.size → length.toNat ≤ s'.src.size →
    (∀ k, k < length.toNat → s.mem.read (s.src.base + k) = s'.mem.read (s'.src.base + k)) →
    ∃ t t' r, exec (.cksum length blen) s = .next t ∧ exec (.cksum length blen') s' = .next t' ∧
      t.rsp = s.rsp ++ [r] ∧ t'.rsp = s'.rsp ++ [r] ∧ t.ckA = t'.ckA ∧ t.ckB = t'.ckB

/-- The model's reading of U11 (log 8): a range that passes the check and leaves the buffer really bound
is refused, at the first byte that is not there. -/
def Obligations.ReadBeyondTheBoundBufferIsRefused : Prop :=
  ∀ (s : State) (length blen : Word), length.toNat ≤ blen.toNat → s.src.size < length.toNat →
    exec (.cksum length blen) s = .refused .srcOverrun

/-! ## Field kinds -/

/-- What R108 to R116 say a field does: the bytes go to `PBUF` from index `PLEN` up, `PLEN` grows by
their number, every other byte of `PBUF` and every other piece of state is as before. -/
def StagesBytes (i : Instr) (bs : List Byte) (s : State) : Prop :=
  ∃ t, exec i s = .next t ∧ t = { s with pbuf := t.pbuf, plen := t.plen } ∧
    t.plen.toNat = s.plen.toNat + bs.length ∧
    (∀ k, k < bs.length → pbufRead t (s.plen.toNat + k) = bs.getD k 0) ∧
    ∀ k, (k < s.plen.toNat ∨ s.plen.toNat + bs.length ≤ k) → pbufRead t k = pbufRead s k

/-- R108, R109, R110. -/
def Obligations.OneByteFieldsStageTheirByte : Prop :=
  (∀ (s : State) (v : BitVec 8), s.plen.toNat + 1 ≤ 65535 →
    StagesBytes (.fldU8 v) [v] s ∧ StagesBytes (.fldI8 v) [v] s ∧ StagesBytes (.fldRaw v) [v] s) ∧
  ∀ w : FldBeat,
    (w.toNat % 16 = 0 → decode (.fld w) = .ok (.fldU8 (BitVec.ofNat 8 (w.toNat / 16)))) ∧
    (w.toNat % 16 = 1 → decode (.fld w) = .ok (.fldI8 (BitVec.ofNat 8 (w.toNat / 16)))) ∧
    (w.toNat % 16 = 2 → decode (.fld w) = .ok (.fldRaw (BitVec.ofNat 8 (w.toNat / 16))))

/-- R111, R112: the low byte first. -/
def Obligations.TwoByteFieldsStageLowByteFirst : Prop :=
  (∀ (s : State) (v : BitVec 16), s.plen.toNat + 2 ≤ 65535 →
    StagesBytes (.fldU16 v) [v.extractLsb' 0 8, v.extractLsb' 8 8] s ∧
    StagesBytes (.fldI16 v) [v.extractLsb' 0 8, v.extractLsb' 8 8] s) ∧
  ∀ w : FldBeat,
    (w.toNat % 16 = 3 → decode (.fld w) = .ok (.fldU16 (BitVec.ofNat 16 (w.toNat / 16)))) ∧
    (w.toNat % 16 = 4 → decode (.fld w) = .ok (.fldI16 (BitVec.ofNat 16 (w.toNat / 16))))

/-- R113, R114, R115. -/
def Obligations.FourByteFieldsStageLowByteFirst : Prop :=
  (∀ (s : State) (v : BitVec 32), s.plen.toNat + 4 ≤ 65535 →
    let bs := [v.extractLsb' 0 8, v.extractLsb' 8 8, v.extractLsb' 16 8, v.extractLsb' 24 8]
    StagesBytes (.fldU32 v) bs s ∧ StagesBytes (.fldI32 v) bs s ∧ StagesBytes (.fldF32 v) bs s) ∧
  ∀ w : FldBeat,
    (w.toNat % 16 = 5 → decode (.fld w) = .ok (.fldU32 (BitVec.ofNat 32 (w.toNat / 16)))) ∧
    (w.toNat % 16 = 6 → decode (.fld w) = .ok (.fldI32 (BitVec.ofNat 32 (w.toNat / 16)))) ∧
    (w.toNat % 16 = 7 → decode (.fld w) = .ok (.fldF32 (BitVec.ofNat 32 (w.toNat / 16))))

/-- R116. -/
def Obligations.EightByteFieldStagesLowByteFirst : Prop :=
  (∀ (s : State) (v : BitVec 64), s.plen.toNat + 8 ≤ 65535 →
    StagesBytes (.fldF64 v) [v.extractLsb' 0 8, v.extractLsb' 8 8, v.extractLsb' 16 8, v.extractLsb' 24 8,
      v.extractLsb' 32 8, v.extractLsb' 40 8, v.extractLsb' 48 8, v.extractLsb' 56 8] s) ∧
  ∀ w : FldBeat, w.toNat % 16 = 8 → decode (.fld w) = .ok (.fldF64 (BitVec.ofNat 64 (w.toNat / 16)))

/-- R107, R117: byte `i` of a field is bits `8i+7 .. 8i` of its value, fields follow one another with
nothing between, the payload byte count is the sum of the sizes, and a field starts at the payload index
that is the sum of the sizes before it, 6 further on in the packet. -/
def Obligations.SerialisationIsDenseLittleEndian : Prop :=
  (∀ f : Field, (ser f).length = f.1.bytes ∧
    ∀ i, i < f.1.bytes → ((ser f).getD i 0).toNat = f.2.toNat / 256 ^ i % 256) ∧
  serAll [] = [] ∧
  (∀ F G : List Field, serAll (F ++ G) = serAll F ++ serAll G) ∧
  (∀ F : List Field, (serAll F).length = payloadSize F) ∧
  ∀ (F G : List Field) (f : Field) (i : Nat) (cls id : Byte), i < f.1.bytes →
    (serAll (F ++ f :: G)).getD (payloadSize F + i) 0 = (ser f).getD i 0 ∧
    (packetOf cls id false (F ++ f :: G)).getD (6 + payloadSize F + i) 0 = (ser f).getD i 0

/-- R121 (log 15): a field that takes the payload over 65535 bytes is refused, and so is a `BUILD` with
such a field list, poll or not, whatever the capacity; nothing is truncated. -/
def Obligations.PayloadOver65535IsRefused : Prop :=
  (∀ (s : State) (f : Field), 65535 < s.plen.toNat + f.1.bytes →
    exec (Instr.ofField f) s = .refused .payloadTooLarge) ∧
  ∀ (s : State) (cap nf : Word) (cls id : Byte) (poll : Bool) (F : List Field) (rest : List FldBeat),
    s.fld = F.map Field.beat ++ rest → F.length = nf.toNat → 65535 < payloadSize F →
    exec (.build cap nf cls id poll) s = .refused .payloadTooLarge

/-! ## BUILD -/

/-- R96, for a `BUILD` whose beats are all there. A payload over 65535 bytes is refused. With
`cap < 8 + L` there is one response with the error, and memory and the accumulator are as before. With
`cap >= 8 + L` the packet's `8 + L` bytes stand in `DST` from offset 0 and every other byte of memory is as
it was, the accumulator holds the two checksum bytes, and one response says so. In both, all `nf` beats
are taken, the descriptor latches and the staging registers are as R86 and R87 leave them, and of the rest
only the working registers `OP`, `OFF` and `PBUF` may differ. The buffer really bound holds the packet
(R152); memory is in its canonical form. -/
def Obligations.BuildIsOneAtomicTransition : Prop :=
  ∀ (s : State) (cap nf : Word) (cls id : Byte) (poll : Bool) (F : List Field) (rest : List FldBeat),
    s.mem.wf = true → s.fld = F.map Field.beat ++ rest → F.length = nf.toNat →
    (65535 < payloadSize F → exec (.build cap nf cls id poll) s = .refused .payloadTooLarge) ∧
    (payloadSize F ≤ 65535 → cap.toNat < packetSize poll F →
      ∃ t, exec (.build cap nf cls id poll) s = .next t ∧ t = { s with
        op := t.op, off := t.off, pbuf := t.pbuf
        cls := cls, idb := id, poll := poll, cap := cap, nfr := 0, fld := rest
        plen := BitVec.ofNat 17 (payloadSize F), len := lengthField poll (payloadSize F)
        ph := .idle, response := none, rsp := s.rsp ++ [Rsp.beat ⟨.bufferTooSmall, 0, 0, 0⟩] }) ∧
    (payloadSize F ≤ 65535 → packetSize poll F ≤ cap.toNat → packetSize poll F ≤ s.dst.size →
      ∃ t, exec (.build cap nf cls id poll) s = .next t ∧
        dstBytes (packetSize poll F) t = packetOf cls id poll F ∧
        (∀ a, (a < s.dst.base ∨ s.dst.base + packetSize poll F ≤ a) → t.mem.read a = s.mem.read a) ∧
        t.ckA = t.mem.read (s.dst.base + (packetSize poll F - 2)) ∧
        t.ckB = t.mem.read (s.dst.base + (packetSize poll F - 1)) ∧
        t = { s with
          op := t.op, off := t.off, pbuf := t.pbuf, mem := t.mem, ckA := t.ckA, ckB := t.ckB
          cls := cls, idb := id, poll := poll, cap := cap, nfr := 0, fld := rest
          plen := BitVec.ofNat 17 (payloadSize F), len := lengthField poll (payloadSize F)
          ph := .idle, response := none
          rsp := s.rsp ++ [Rsp.beat ⟨.ok, t.ckA, t.ckB, BitVec.ofNat 32 (packetSize poll F)⟩] })

/-- R88, R139: the capacity check comes before any write, so with `cap < 8 + L` the outcome is the same
whatever is bound to `DST`: the response with zeros, memory and the accumulator as before, all `nf` beats
taken. A poll request needs 8 bytes whatever its fields. -/
def Obligations.BufferTooSmallWritesNothing : Prop :=
  ∀ (s : State) (cap nf : Word) (cls id : Byte) (poll : Bool) (F : List Field) (rest : List FldBeat),
    s.fld = F.map Field.beat ++ rest → F.length = nf.toNat → payloadSize F ≤ 65535 →
    (cap.toNat < 8 + (if poll then 0 else payloadSize F) →
      ∃ t, exec (.build cap nf cls id poll) s = .next t ∧ t.rsp = s.rsp ++ [1] ∧ t.mem = s.mem ∧
        t.ckA = s.ckA ∧ t.ckB = s.ckB ∧ t.fld = rest ∧ t.cmd = s.cmd ∧ t.src = s.src ∧ t.dst = s.dst ∧
        t.ph = .idle ∧ t.response = none) ∧
    (8 + (if poll then 0 else payloadSize F) ≤ cap.toNat →
      ∀ t, exec (.build cap nf cls id poll) s = .next t → ∃ r, t.rsp = s.rsp ++ [Rsp.beat r] ∧ r.status = .ok)

/-- R104, R122, R124, R127: `CKSUM` raises only `InvalidRange`, exactly when `length > blen`; `BUILD` raises
only `BufferTooSmall`, exactly when `cap < 8 + L`, or it waits for beats and answers nothing yet. -/
def Obligations.EachOperationRaisesOnlyItsOwnError : Prop :=
  (∀ (s t : State) (length blen : Word), exec (.cksum length blen) s = .next t →
    ∃ r, t.rsp = s.rsp ++ [Rsp.beat r] ∧ r.status ≠ .bufferTooSmall ∧
      (r.status = .invalidRange ↔ blen.toNat < length.toNat) ∧
      (r.status = .invalidRange → r.ckA = 0 ∧ r.ckB = 0 ∧ r.count = 0)) ∧
  ∀ (s t : State) (cap nf : Word) (cls id : Byte) (poll : Bool), exec (.build cap nf cls id poll) s = .next t →
    (t.ph = .load ∧ t.rsp = s.rsp) ∨
    ∃ r, t.rsp = s.rsp ++ [Rsp.beat r] ∧ r.status ≠ .invalidRange ∧
      (r.status = .bufferTooSmall ↔ cap.toNat < 8 + t.len.toNat) ∧
      (r.status = .bufferTooSmall → r.ckA = 0 ∧ r.ckB = 0 ∧ r.count = 0)

/-- R97: a poll request is 8 bytes with the closed-form checksum, whatever fields were supplied. -/
def Obligations.PollPacketIgnoresItsFields : Prop :=
  ∀ (s : State) (cap nf : Word) (cls id : Byte) (F : List Field) (rest : List FldBeat),
    s.mem.wf = true → s.fld = F.map Field.beat ++ rest → F.length = nf.toNat → payloadSize F ≤ 65535 →
    8 ≤ cap.toNat → 8 ≤ s.dst.size →
    ∃ t, exec (.build cap nf cls id true) s = .next t ∧ t.fld = rest ∧
      dstBytes 8 t = [0xB5, 0x62, cls, id, 0, 0, cls + id, 4 * cls + 3 * id] ∧
      t.rsp = s.rsp ++ [Rsp.beat ⟨.ok, cls + id, 4 * cls + 3 * id, 8⟩]

/-- R98: a message with no fields and a poll request with the same class and id do the same, but for the
register `POLL`. -/
def Obligations.EmptyMessageIsWrittenAsAPoll : Prop :=
  ∀ (s : State) (cap : Word) (cls id : Byte) (t : State),
    exec (.build cap 0 cls id true) s = .next t →
    exec (.build cap 0 cls id false) s = .next { t with poll := false }

/-- R52, R48, R51: the length field of a built packet, read little-endian, is the number of payload bytes
written, and `count` is 8 more. -/
def Obligations.LengthFieldCountsThePayload : Prop :=
  ∀ (s : State) (cap nf : Word) (cls id : Byte) (poll : Bool) (F : List Field) (rest : List FldBeat),
    s.mem.wf = true → s.fld = F.map Field.beat ++ rest → F.length = nf.toNat → payloadSize F ≤ 65535 →
    packetSize poll F ≤ cap.toNat → packetSize poll F ≤ s.dst.size →
    ∃ t r, exec (.build cap nf cls id poll) s = .next t ∧ t.rsp = s.rsp ++ [Rsp.beat r] ∧
      (t.mem.read (s.dst.base + 4)).toNat + 256 * (t.mem.read (s.dst.base + 5)).toNat =
        (if poll then 0 else payloadSize F) ∧
      r.count.toNat = 8 + ((t.mem.read (s.dst.base + 4)).toNat + 256 * (t.mem.read (s.dst.base + 5)).toNat) ∧
      ∀ k, k < (if poll then 0 else payloadSize F) →
        t.mem.read (s.dst.base + 6 + k) = (serAll F).getD k 0

/-- R84, R50, R40 (d), program P5: bind `SRC` to the packet from byte 2 on, and `CKSUM` over `4 + L`
bytes gives the two checksum bytes the packet ends in. -/
def Obligations.BuiltPacketVerifiesByCksum : Prop :=
  ∀ (s : State) (cap nf : Word) (cls id : Byte) (poll : Bool) (F : List Field) (rest : List FldBeat),
    s.mem.wf = true → s.fld = F.map Field.beat ++ rest → F.length = nf.toNat → payloadSize F ≤ 65535 →
    packetSize poll F ≤ cap.toNat → packetSize poll F ≤ s.dst.size →
    ∃ t u, exec (.build cap nf cls id poll) s = .next t ∧
      exec (.cksum (BitVec.ofNat 32 (packetSize poll F - 4)) (BitVec.ofNat 32 (packetSize poll F - 2)))
        (bindSrc ⟨s.dst.base + 2, packetSize poll F - 2⟩ t) = .next u ∧
      u.mem = t.mem ∧
      u.ckA = t.mem.read (s.dst.base + (packetSize poll F - 2)) ∧
      u.ckB = t.mem.read (s.dst.base + (packetSize poll F - 1))

/-- R100, R21, R143: the packet and the response of a `BUILD` depend on its operands alone: not on any
register, nor on the staging buffer, nor on the old content of `DST`. -/
def Obligations.BuildReadsNoEarlierState : Prop :=
  ∀ (s s' : State) (cap nf : Word) (cls id : Byte) (poll : Bool) (F : List Field) (rest rest' : List FldBeat),
    s.mem.wf = true → s'.mem.wf = true →
    s.fld = F.map Field.beat ++ rest → s'.fld = F.map Field.beat ++ rest' → F.length = nf.toNat →
    payloadSize F ≤ 65535 → packetSize poll F ≤ s.dst.size → packetSize poll F ≤ s'.dst.size →
    ∃ t t' r, exec (.build cap nf cls id poll) s = .next t ∧ exec (.build cap nf cls id poll) s' = .next t' ∧
      t.rsp = s.rsp ++ [r] ∧ t'.rsp = s'.rsp ++ [r] ∧
      (packetSize poll F ≤ cap.toNat → dstBytes (packetSize poll F) t = dstBytes (packetSize poll F) t' ∧
        t.ckA = t'.ckA ∧ t.ckB = t'.ckB)

/-- The model's reading of U12 (log 9): a packet that passes the capacity check and does not fit the
buffer really bound is refused. -/
def Obligations.WriteBeyondTheBoundBufferIsRefused : Prop :=
  ∀ (s : State) (cap nf : Word) (cls id : Byte) (poll : Bool) (F : List Field) (rest : List FldBeat),
    s.fld = F.map Field.beat ++ rest → F.length = nf.toNat → payloadSize F ≤ 65535 →
    packetSize poll F ≤ cap.toNat → s.dst.size < packetSize poll F →
    exec (.build cap nf cls id poll) s = .refused .dstOverrun

/-- R86, R153, U8: with fewer beats than `nf` the core takes those there are and waits in `LOAD`: the
descriptor latched, the bytes of the beats taken staged, no response, no byte of memory written, the
accumulator as it was; and a step then changes nothing (log 10). -/
def Obligations.BuildWaitsForItsBeats : Prop :=
  ∀ (s : State) (cap nf : Word) (cls id : Byte) (poll : Bool) (F : List Field),
    s.fld = F.map Field.beat → F.length < nf.toNat → payloadSize F ≤ 65535 →
    ∃ t, exec (.build cap nf cls id poll) s = .next t ∧ t.ph = .load ∧ t.op = .build ∧
      t.nfr.toNat = nf.toNat - F.length ∧ t.plen.toNat = payloadSize F ∧ t.fld = [] ∧ t.rsp = s.rsp ∧
      t.mem = s.mem ∧ t.ckA = s.ckA ∧ t.ckB = s.ckB ∧ t.cmd = s.cmd ∧
      t.cls = cls ∧ t.idb = id ∧ t.poll = poll ∧ t.cap = cap ∧ pbufBytes (payloadSize F) t = serAll F ∧
      t.src = s.src ∧ t.dst = s.dst ∧ t.response = s.response ∧ (s.acc = none → step t = .next t)

/-- R145 (3), R86, R155: the field beats "may be sent before, with or after the command". Once a `BUILD`
that waits in `LOAD` has been sent more beats, the steps that follow come to exactly the outcome of a
`BUILD` that had all of them from the start: the packet, an error, a refusal, or a further wait. So do the
steps of the reference sequencer. That the outcomes agree in every register, in the refusals and in the
wait rests on logs 1, 9, 10, 15 and 16. -/
def Obligations.LateBeatsCompleteAWaitingBuild : Prop :=
  ∀ (s t : State) (cap nf : Word) (cls id : Byte) (poll : Bool) (late : List FldBeat),
    exec (.build cap nf cls id poll) s = .next t → t.ph = .load →
    (s.acc = none →
      ∃ k, stepRun k (late.foldl (fun u w => sendFld w u) t) =
        exec (.build cap nf cls id poll) { s with fld := s.fld ++ late }) ∧
    ∃ k, seqRun k (late.foldl (fun u w => sendFld w u) t) =
      exec (.build cap nf cls id poll) { s with fld := s.fld ++ late }

/-! ## Steps -/

/-- A step takes the bundle at the head of the channel its phase reads, or the word on the `ACC` input (log 2),
and runs exactly the instruction the bundle decodes to, in the state without the bundle. -/
def Obligations.StepRunsTheDecodedInstruction : Prop :=
  (∀ (s : State) (w : CmdBeat) (ws : List CmdBeat) (i : Instr), s.acc = none → s.ph = .idle → s.cmd = w :: ws →
    decode (.cmd w) = .ok i → step s = exec i { s with cmd := ws }) ∧
  (∀ (s : State) (w : FldBeat) (ws : List FldBeat) (i : Instr), s.acc = none → s.ph = .load → s.nfr ≠ 0 →
    s.fld = w :: ws → decode (.fld w) = .ok i → step s = exec i { s with fld := ws, nfr := s.nfr - 1 }) ∧
  ∀ (s : State) (w : AccWord) (i : Instr), s.acc = some w → decode (.acc w) = .ok i →
    step s = exec i { s with acc := none }

/-- A word of the opcode table placed where the machine takes its next instruction is run by the next
step (log 12, log 13), with the accumulator, the staged payload and memory as they were. -/
def Obligations.PlacedTableWordRunsNext : Prop :=
  ∀ (s : State) (nbits w : Nat) (i : Instr), decodeTableWord nbits w = some i →
    ∃ t, step (s.withFetchWord nbits w) = exec i t ∧ t.ckA = s.ckA ∧ t.ckB = s.ckB ∧ t.mem = s.mem ∧
      t.pbuf = s.pbuf ∧ t.plen = s.plen ∧ t.cmd = s.cmd ∧ t.fld = s.fld ∧ t.rsp = s.rsp

/-- R135, R153: a core with no beat to take waits and loses nothing (log 10). -/
def Obligations.WaitingCoreKeepsItsState : Prop :=
  (∀ s : State, s.acc = none → s.ph = .idle → s.cmd = [] → step s = .next s) ∧
  ∀ s : State, s.acc = none → s.ph = .load → s.nfr ≠ 0 → s.fld = [] → step s = .next s

/-- R135, R138, R155: a step changes nothing exactly in a core that has ended and in a stuck one, with no
word on the `ACC` input (logs 2, 10); and these are two, "a core stuck in `LOAD` has not ended". -/
def Obligations.WaitingCoreHasEndedOrIsStuck : Prop :=
  ∀ s : State, (step s = .next s ↔ s.acc = none ∧ (Ended s ∨ Stuck s)) ∧ ¬(Ended s ∧ Stuck s)

/-- R155, R83: steps from any legal state come, after finitely many, to the end of the run, with every
command that waited or was under way answered; or to a core stuck in `LOAD` (R138, R153); or to a refusal,
a situation "the spec gives no meaning" (R138; logs 8, 9, 15). No run of steps goes on for ever. -/
def Obligations.EveryRunEndsSticksOrIsRefused : Prop :=
  ∀ s : State, Inv s → ∃ k,
    (∃ t, stepRun k s = .next t ∧ t.acc = none ∧ (EndOfRun s t ∨ Stuck t)) ∨ ∃ r, stepRun k s = .refused r

/-- The invariant holds at reset. -/
def Obligations.ResetStateMeetsInvariant : Prop := Inv State.reset

/-- Every step keeps the invariant: memory canonical, `PLEN` and `PBUF` in bounds, the registers as the
fixed walk of phases leaves them (R11, R14, R15, R16). -/
def Obligations.StepKeepsInvariant : Prop := ∀ s t : State, Inv s → step s = .next t → Inv t

/-- Every action of the host keeps the invariant. -/
def Obligations.HostActionsKeepInvariant : Prop := ∀ (h : HostAction) (s : State), Inv s → Inv (hostAct h s)

/-- R16, R125: no state that meets the invariant makes a step fault (log 11). -/
def Obligations.NoStepFaults : Prop := ∀ s : State, Inv s → SafeStep s

/-- R38: a step writes no byte outside the buffer bound to `DST`, nor at an offset `>= cap`, and binds
no port. -/
def Obligations.StepWritesInsideDestinationOnly : Prop :=
  ∀ s t : State, Inv s → step s = .next t →
    t.src = s.src ∧ t.dst = s.dst ∧
    ∀ a, (a < s.dst.base ∨ s.dst.base + min s.dst.size t.cap.toNat ≤ a) → t.mem.read a = s.mem.read a

/-- R62, R136: commands and responses balance at every step: those sent, those waiting and the one under
way; responses are added at the end, commands taken from the front. -/
def Obligations.OneResponsePerCommand : Prop :=
  ∀ s t : State, step s = .next t →
    t.rsp.length + underWay t + t.cmd.length = s.rsp.length + underWay s + s.cmd.length ∧
    s.rsp <+: t.rsp ∧ t.cmd <:+ s.cmd

/-- R22, R141: the state after reset. What `PBUF` holds is the free value, of which nothing is known; that
it is the one numbered 0 and 0 is the model's (log 7). -/
def Obligations.ResetValues : Prop :=
  State.reset.ckA = 0 ∧ State.reset.ckB = 0 ∧ State.reset.ph.code = 0 ∧ State.reset.op.code = 0 ∧
  State.reset.off = 0 ∧ State.reset.len = 0 ∧ State.reset.cap = 0 ∧ State.reset.cnt = 0 ∧
  State.reset.nfr = 0 ∧ State.reset.plen = 0 ∧ State.reset.cls = 0 ∧ State.reset.idb = 0 ∧
  State.reset.poll = false ∧ State.reset.response = none ∧ State.reset.cmd = [] ∧ State.reset.fld = [] ∧
  State.reset.rsp = [] ∧ ∀ k, pbufRead State.reset k = Config.pbufFree 0 0 k

/-- R141: `rst` in any state gives every register its reset value, drops the beats of the three channels,
and does not touch the memory. That the ports stay bound to what they were bound to is the model's choice
(log 18). -/
def Obligations.RstResetsTheCoreNotTheBuffers : Prop :=
  ∀ s : State, (rst s).ckA = 0 ∧ (rst s).ckB = 0 ∧ (rst s).ph = .idle ∧ (rst s).op = .none ∧
    (rst s).off = 0 ∧ (rst s).len = 0 ∧ (rst s).cap = 0 ∧ (rst s).cnt = 0 ∧ (rst s).nfr = 0 ∧
    (rst s).plen = 0 ∧ (rst s).cls = 0 ∧ (rst s).idb = 0 ∧ (rst s).poll = false ∧ (rst s).response = none ∧
    (rst s).cmd = [] ∧ (rst s).fld = [] ∧ (rst s).rsp = [] ∧ (rst s).mem = s.mem ∧
    (rst s).src = s.src ∧ (rst s).dst = s.dst

/-! ## The reference sequencer -/

/-- R82, R78: from `IDLE` the reference sequencer comes, in some number of steps, to exactly the outcome of
the atomic `CKSUM`. That `OP`, `CNT`, `CAP` and `OFF` agree too rests on the values the model leaves in them
(log 16), and that a read beyond the bound buffer is refused on both levels on log 8. -/
def Obligations.SequencerRefinesCksum : Prop :=
  ∀ (s : State) (w : CmdBeat) (ws : List CmdBeat) (length blen : Word),
    s.ph = .idle → s.cmd = w :: ws → decode (.cmd w) = .ok (.cksum length blen) →
    ∃ k, seqRun k s = exec (.cksum length blen) { s with cmd := ws }

/-- R102: "the run of rule R101 from `IDLE` to `IDLE` has exactly the effect of rule R96". The statement says
more, which is the model's: that the two levels agree where the `BUILD` waits for beats (logs 1, 10), in the
working registers (log 16), and where it is refused (logs 9, 15). -/
def Obligations.SequencerRefinesBuild : Prop :=
  ∀ (s : State) (w : CmdBeat) (ws : List CmdBeat) (cap nf : Word) (cls id : Byte) (poll : Bool),
    s.ph = .idle → s.cmd = w :: ws → decode (.cmd w) = .ok (.build cap nf cls id poll) →
    ∃ k, seqRun k s = exec (.build cap nf cls id poll) { s with cmd := ws }

/-- Inside an operation a step is the reference sequencer's step (log 1). -/
def Obligations.StepFollowsSequencerInsideOperation : Prop :=
  ∀ s : State, s.acc = none → s.ph ≠ .idle → step s = seqStep s

/-- R16: the phases are passed in the fixed order of R82 and R101; the only choices are the error exit
from `CHECK`, the skip of `PAYLOAD`, and the repetitions of `LOAD`, `PAYLOAD` and `RANGE`. -/
def Obligations.PhasesFollowTheFixedWalk : Prop :=
  ∀ s t : State, seqStep s = .next t →
    match s.ph with
    | .idle => (s.cmd = [] ∧ t.ph = .idle) ∨ (t.op = .build ∧ t.ph = .load) ∨ (t.op = .cksum ∧ t.ph = .check)
    | .load => if s.nfr = 0 then t.ph = .check else t.ph = .load
    | .check => t.ph = .resp ∨ (s.op = .build ∧ t.ph = .sync1) ∨ (s.op = .cksum ∧ t.ph = .range)
    | .sync1 => t.ph = .sync2
    | .sync2 => t.ph = .cls
    | .cls => t.ph = .idb
    | .idb => t.ph = .lenLo
    | .lenLo => t.ph = .lenHi
    | .lenHi => if s.len = 0 then t.ph = .cka else t.ph = .payload
    | .payload => if t.off.toNat = 6 + s.len.toNat then t.ph = .cka else t.ph = .payload
    | .cka => t.ph = .ckb
    | .ckb => t.ph = .resp
    | .range => if s.off.toNat < s.cnt.toNat then t.ph = .range else t.ph = .resp
    | .resp => t.ph = .idle

/-- R36, R142, U7: stopped after any number of steps, and so when `rst` abandons it, a `BUILD` has written
the bytes of its packet up to some offset and no other byte; after `rst` no response stands for it. -/
def Obligations.AbandonedBuildLeavesAPrefix : Prop :=
  ∀ (s : State) (w : CmdBeat) (cap nf : Word) (cls id : Byte) (poll : Bool) (F : List Field) (k : Nat) (t : State),
    s.mem.wf = true → s.ph = .idle → s.cmd = [w] → decode (.cmd w) = .ok (.build cap nf cls id poll) →
    s.fld = F.map Field.beat → F.length = nf.toNat → payloadSize F ≤ 65535 →
    seqRun k s = .next t →
    (rst t).rsp = [] ∧
    ∃ j, j ≤ packetSize poll F ∧ ∀ a, (rst t).mem.read a =
      if s.dst.base ≤ a ∧ a < s.dst.base + j then (packetOf cls id poll F).getD (a - s.dst.base) 0
      else s.mem.read a

/-! ## Instances and codes -/

/-- R137, R7, over the system of log 14: an instance steps, and the host acts on it, as on a single core
over the common memory; and what one core is left in, the instance is left in. -/
def Obligations.InstanceRunsAsOneCore : Prop :=
  ∀ (y : System) (j : Nat) (c : State), y.cores[j]? = some c →
    (∀ t, step (y.view c) = .next t → y.stepAt j = .next (y.put j t)) ∧
    (∀ r, step (y.view c) = .fault r ↔ y.stepAt j = .fault r) ∧
    (∀ r, step (y.view c) = .refused r ↔ y.stepAt j = .refused r) ∧
    (∀ h, y.hostActAt j h = y.put j (hostAct h (y.view c))) ∧
    y.nextRsp j = c.rsp.head? ∧
    ∀ t, ∃ d, (y.put j t).cores[j]? = some d ∧ (y.put j t).view d = t

/-- R137, R41, over the system of log 14: instances share nothing but memory. What a step of an instance
leaves unchanged: every other instance, and every byte of memory outside its own destination. What it
depends on: that instance and the memory alone, whatever the other instances hold. A host action on one
instance leaves every other as it was, and the memory, unless it is a store. -/
def Obligations.InstancesDoNotInterfere : Prop :=
  (∀ (y z : System) (j : Nat), y.Inv → y.stepAt j = .next z →
    (∀ i, i ≠ j → z.cores[i]? = y.cores[i]?) ∧ z.cores.length = y.cores.length ∧
    ∀ (c : State) (a : Nat), y.cores[j]? = some c → (a < c.dst.base ∨ c.dst.base + c.dst.size ≤ a) →
      z.mem.read a = y.mem.read a) ∧
  (∀ (y y' : System) (j : Nat), y.cores[j]? = y'.cores[j]? → y.mem = y'.mem →
    (∀ z, y.stepAt j = .next z →
      ∃ z', y'.stepAt j = .next z' ∧ z'.cores[j]? = z.cores[j]? ∧ z'.mem = z.mem) ∧
    (∀ r, y.stepAt j = .fault r → y'.stepAt j = .fault r) ∧
    ∀ r, y.stepAt j = .refused r → y'.stepAt j = .refused r) ∧
  ∀ (y : System) (j : Nat) (h : HostAction),
    (∀ i, i ≠ j → (y.hostActAt j h).cores[i]? = y.cores[i]?) ∧
    ((∀ a b, h ≠ .write a b) → (y.hostActAt j h).mem = y.mem)

/-- The instances right after reset meet the invariant, and each has ended (R6, R22, R155). -/
def Obligations.SystemResetMeetsInvariant : Prop :=
  ∀ n : Nat, (System.reset n).Inv ∧ (System.reset n).cores.length = n ∧ ∀ c ∈ (System.reset n).cores, Ended c

/-- Every action of a system, a step of an instance or an action of the host on one, keeps the invariant of
all of them (R137, R7; log 14). -/
def Obligations.SystemActionsKeepInvariant : Prop :=
  ∀ (y z : System) (a : SystemAction), y.Inv → y.act a = .next z → z.Inv

/-- R16, R11, R122: the codes that `PH`, `OP` and `status` hold. -/
def Obligations.PhaseOpAndStatusCodes : Prop :=
  [Phase.idle, .load, .check, .sync1, .sync2, .cls, .idb, .lenLo, .lenHi, .payload, .cka, .ckb, .range, .resp].map
    (fun p => p.code.toNat) = List.range 14 ∧
  [RunOp.none, .cksum, .build].map (fun o => o.code.toNat) = [0, 1, 2] ∧
  [Status.ok, .bufferTooSmall, .invalidRange].map (fun c => c.code.toNat) = [0, 1, 2]
end

