-- ==== Sys2Proof/Laws/State.lean ====
section
/-! SUPPORT. What each update of the state leaves in each field, and how outcomes chain. -/

namespace Sys2Proof.Machine

/-! ## Outcomes -/

@[simp] theorem andThen_next (s : State) (f : State → Result) : andThen (.next s) f = f s := rfl

@[simp] theorem andThen_fault (r : Fault) (f : State → Result) : andThen (.fault r) f = .fault r := rfl

@[simp] theorem andThen_refused (r : Refusal) (f : State → Result) : andThen (.refused r) f = .refused r := rfl

@[simp] theorem andThen_next_right (o : Result) : andThen o .next = o := by cases o <;> rfl

theorem andThen_assoc (o : Result) (f g : State → Result) :
    andThen (andThen o f) g = andThen o fun s => andThen (f s) g := by cases o <;> rfl

theorem andThen_eq_next {o : Result} {f : State → Result} {t : State} :
    andThen o f = .next t ↔ ∃ s, o = .next s ∧ f s = .next t := by cases o <;> simp

theorem andThen_eq_fault {o : Result} {f : State → Result} {r : Fault} :
    andThen o f = .fault r ↔ o = .fault r ∨ ∃ s, o = .next s ∧ f s = .fault r := by cases o <;> simp

/-! ## Runs -/

@[simp] theorem iterate_zero (f : State → Result) (s : State) : iterate f 0 s = .next s := rfl

theorem iterate_succ (f : State → Result) (k : Nat) (s : State) :
    iterate f (k + 1) s = andThen (f s) (iterate f k) := rfl

theorem iterate_one (f : State → Result) (s : State) : iterate f 1 s = f s := andThen_next_right (f s)

/-- A run of `j + k` steps is a run of `j` and then one of `k`. -/
theorem iterate_add (f : State → Result) (j k : Nat) (s : State) :
    iterate f (j + k) s = andThen (iterate f j s) (iterate f k) := by
  induction j generalizing s with
  | zero => rw [Nat.zero_add, iterate_zero, andThen_next]
  | succ j ih =>
    rw [Nat.succ_add, iterate_succ, iterate_succ, andThen_assoc]
    exact congrArg _ (funext ih)

/-- Runs chain: where a run comes to `o`, and from a next state of `o` a run comes to `g`, a run comes to both. -/
theorem iterate_bind {f : State → Result} {s : State} {o : Result} {g : State → Result}
    (h : ∃ k, iterate f k s = o) (h' : ∀ t, o = .next t → ∃ k, iterate f k t = g t) :
    ∃ k, iterate f k s = andThen o g := by
  obtain ⟨k, rfl⟩ := h
  cases ho : iterate f k s with
  | next t =>
    obtain ⟨k', e⟩ := h' t ho
    exact ⟨k + k', by rw [iterate_add, ho]; exact e⟩
  | fault r => exact ⟨k, ho⟩
  | refused r => exact ⟨k, ho⟩

/-! ## `clearAcc` -/

@[simp] theorem clearAcc_ckA (s : State) : (clearAcc s).ckA = 0 := rfl
@[simp] theorem clearAcc_ckB (s : State) : (clearAcc s).ckB = 0 := rfl
@[simp] theorem clearAcc_cls (s : State) : (clearAcc s).cls = s.cls := rfl
@[simp] theorem clearAcc_idb (s : State) : (clearAcc s).idb = s.idb := rfl
@[simp] theorem clearAcc_poll (s : State) : (clearAcc s).poll = s.poll := rfl
@[simp] theorem clearAcc_len (s : State) : (clearAcc s).len = s.len := rfl
@[simp] theorem clearAcc_cap (s : State) : (clearAcc s).cap = s.cap := rfl
@[simp] theorem clearAcc_cnt (s : State) : (clearAcc s).cnt = s.cnt := rfl
@[simp] theorem clearAcc_off (s : State) : (clearAcc s).off = s.off := rfl
@[simp] theorem clearAcc_nfr (s : State) : (clearAcc s).nfr = s.nfr := rfl
@[simp] theorem clearAcc_plen (s : State) : (clearAcc s).plen = s.plen := rfl
@[simp] theorem clearAcc_pbuf (s : State) : (clearAcc s).pbuf = s.pbuf := rfl
@[simp] theorem clearAcc_ph (s : State) : (clearAcc s).ph = s.ph := rfl
@[simp] theorem clearAcc_op (s : State) : (clearAcc s).op = s.op := rfl
@[simp] theorem clearAcc_response (s : State) : (clearAcc s).response = s.response := rfl
@[simp] theorem clearAcc_cmd (s : State) : (clearAcc s).cmd = s.cmd := rfl
@[simp] theorem clearAcc_fld (s : State) : (clearAcc s).fld = s.fld := rfl
@[simp] theorem clearAcc_rsp (s : State) : (clearAcc s).rsp = s.rsp := rfl
@[simp] theorem clearAcc_acc (s : State) : (clearAcc s).acc = s.acc := rfl
@[simp] theorem clearAcc_mem (s : State) : (clearAcc s).mem = s.mem := rfl
@[simp] theorem clearAcc_src (s : State) : (clearAcc s).src = s.src := rfl
@[simp] theorem clearAcc_dst (s : State) : (clearAcc s).dst = s.dst := rfl
@[simp] theorem clearAcc_epoch (s : State) : (clearAcc s).epoch = s.epoch := rfl
@[simp] theorem clearAcc_seed (s : State) : (clearAcc s).seed = s.seed := rfl

/-! ## `absorb` -/

@[simp] theorem absorb_ckA (d : Byte) (s : State) : (absorb d s).ckA = s.ckA + d := rfl
@[simp] theorem absorb_ckB (d : Byte) (s : State) : (absorb d s).ckB = s.ckB + (s.ckA + d) := rfl
@[simp] theorem absorb_cls (d : Byte) (s : State) : (absorb d s).cls = s.cls := rfl
@[simp] theorem absorb_idb (d : Byte) (s : State) : (absorb d s).idb = s.idb := rfl
@[simp] theorem absorb_poll (d : Byte) (s : State) : (absorb d s).poll = s.poll := rfl
@[simp] theorem absorb_len (d : Byte) (s : State) : (absorb d s).len = s.len := rfl
@[simp] theorem absorb_cap (d : Byte) (s : State) : (absorb d s).cap = s.cap := rfl
@[simp] theorem absorb_cnt (d : Byte) (s : State) : (absorb d s).cnt = s.cnt := rfl
@[simp] theorem absorb_off (d : Byte) (s : State) : (absorb d s).off = s.off := rfl
@[simp] theorem absorb_nfr (d : Byte) (s : State) : (absorb d s).nfr = s.nfr := rfl
@[simp] theorem absorb_plen (d : Byte) (s : State) : (absorb d s).plen = s.plen := rfl
@[simp] theorem absorb_pbuf (d : Byte) (s : State) : (absorb d s).pbuf = s.pbuf := rfl
@[simp] theorem absorb_ph (d : Byte) (s : State) : (absorb d s).ph = s.ph := rfl
@[simp] theorem absorb_op (d : Byte) (s : State) : (absorb d s).op = s.op := rfl
@[simp] theorem absorb_response (d : Byte) (s : State) : (absorb d s).response = s.response := rfl
@[simp] theorem absorb_cmd (d : Byte) (s : State) : (absorb d s).cmd = s.cmd := rfl
@[simp] theorem absorb_fld (d : Byte) (s : State) : (absorb d s).fld = s.fld := rfl
@[simp] theorem absorb_rsp (d : Byte) (s : State) : (absorb d s).rsp = s.rsp := rfl
@[simp] theorem absorb_acc (d : Byte) (s : State) : (absorb d s).acc = s.acc := rfl
@[simp] theorem absorb_mem (d : Byte) (s : State) : (absorb d s).mem = s.mem := rfl
@[simp] theorem absorb_src (d : Byte) (s : State) : (absorb d s).src = s.src := rfl
@[simp] theorem absorb_dst (d : Byte) (s : State) : (absorb d s).dst = s.dst := rfl
@[simp] theorem absorb_epoch (d : Byte) (s : State) : (absorb d s).epoch = s.epoch := rfl
@[simp] theorem absorb_seed (d : Byte) (s : State) : (absorb d s).seed = s.seed := rfl

/-! ## `sendRsp` -/

@[simp] theorem sendRsp_ckA (r : Rsp) (s : State) : (sendRsp r s).ckA = s.ckA := rfl
@[simp] theorem sendRsp_ckB (r : Rsp) (s : State) : (sendRsp r s).ckB = s.ckB := rfl
@[simp] theorem sendRsp_cls (r : Rsp) (s : State) : (sendRsp r s).cls = s.cls := rfl
@[simp] theorem sendRsp_idb (r : Rsp) (s : State) : (sendRsp r s).idb = s.idb := rfl
@[simp] theorem sendRsp_poll (r : Rsp) (s : State) : (sendRsp r s).poll = s.poll := rfl
@[simp] theorem sendRsp_len (r : Rsp) (s : State) : (sendRsp r s).len = s.len := rfl
@[simp] theorem sendRsp_cap (r : Rsp) (s : State) : (sendRsp r s).cap = s.cap := rfl
@[simp] theorem sendRsp_cnt (r : Rsp) (s : State) : (sendRsp r s).cnt = s.cnt := rfl
@[simp] theorem sendRsp_off (r : Rsp) (s : State) : (sendRsp r s).off = s.off := rfl
@[simp] theorem sendRsp_nfr (r : Rsp) (s : State) : (sendRsp r s).nfr = s.nfr := rfl
@[simp] theorem sendRsp_plen (r : Rsp) (s : State) : (sendRsp r s).plen = s.plen := rfl
@[simp] theorem sendRsp_pbuf (r : Rsp) (s : State) : (sendRsp r s).pbuf = s.pbuf := rfl
@[simp] theorem sendRsp_ph (r : Rsp) (s : State) : (sendRsp r s).ph = .idle := rfl
@[simp] theorem sendRsp_op (r : Rsp) (s : State) : (sendRsp r s).op = s.op := rfl
@[simp] theorem sendRsp_response (r : Rsp) (s : State) : (sendRsp r s).response = none := rfl
@[simp] theorem sendRsp_cmd (r : Rsp) (s : State) : (sendRsp r s).cmd = s.cmd := rfl
@[simp] theorem sendRsp_fld (r : Rsp) (s : State) : (sendRsp r s).fld = s.fld := rfl
@[simp] theorem sendRsp_rsp (r : Rsp) (s : State) : (sendRsp r s).rsp = s.rsp ++ [r.beat] := rfl
@[simp] theorem sendRsp_acc (r : Rsp) (s : State) : (sendRsp r s).acc = s.acc := rfl
@[simp] theorem sendRsp_mem (r : Rsp) (s : State) : (sendRsp r s).mem = s.mem := rfl
@[simp] theorem sendRsp_src (r : Rsp) (s : State) : (sendRsp r s).src = s.src := rfl
@[simp] theorem sendRsp_dst (r : Rsp) (s : State) : (sendRsp r s).dst = s.dst := rfl
@[simp] theorem sendRsp_epoch (r : Rsp) (s : State) : (sendRsp r s).epoch = s.epoch := rfl
@[simp] theorem sendRsp_seed (r : Rsp) (s : State) : (sendRsp r s).seed = s.seed := rfl

/-! ## `raiseError` -/

@[simp] theorem raiseError_ckA (st : Status) (s : State) : (raiseError st s).ckA = s.ckA := rfl
@[simp] theorem raiseError_ckB (st : Status) (s : State) : (raiseError st s).ckB = s.ckB := rfl
@[simp] theorem raiseError_cls (st : Status) (s : State) : (raiseError st s).cls = s.cls := rfl
@[simp] theorem raiseError_idb (st : Status) (s : State) : (raiseError st s).idb = s.idb := rfl
@[simp] theorem raiseError_poll (st : Status) (s : State) : (raiseError st s).poll = s.poll := rfl
@[simp] theorem raiseError_len (st : Status) (s : State) : (raiseError st s).len = s.len := rfl
@[simp] theorem raiseError_cap (st : Status) (s : State) : (raiseError st s).cap = s.cap := rfl
@[simp] theorem raiseError_cnt (st : Status) (s : State) : (raiseError st s).cnt = s.cnt := rfl
@[simp] theorem raiseError_off (st : Status) (s : State) : (raiseError st s).off = s.off := rfl
@[simp] theorem raiseError_nfr (st : Status) (s : State) : (raiseError st s).nfr = s.nfr := rfl
@[simp] theorem raiseError_plen (st : Status) (s : State) : (raiseError st s).plen = s.plen := rfl
@[simp] theorem raiseError_pbuf (st : Status) (s : State) : (raiseError st s).pbuf = s.pbuf := rfl
@[simp] theorem raiseError_ph (st : Status) (s : State) : (raiseError st s).ph = .idle := rfl
@[simp] theorem raiseError_op (st : Status) (s : State) : (raiseError st s).op = s.op := rfl
@[simp] theorem raiseError_response (st : Status) (s : State) : (raiseError st s).response = none := rfl
@[simp] theorem raiseError_cmd (st : Status) (s : State) : (raiseError st s).cmd = s.cmd := rfl
@[simp] theorem raiseError_fld (st : Status) (s : State) : (raiseError st s).fld = s.fld := rfl
@[simp] theorem raiseError_rsp (st : Status) (s : State) : (raiseError st s).rsp = s.rsp ++ [(errRsp st).beat] := rfl
@[simp] theorem raiseError_acc (st : Status) (s : State) : (raiseError st s).acc = s.acc := rfl
@[simp] theorem raiseError_mem (st : Status) (s : State) : (raiseError st s).mem = s.mem := rfl
@[simp] theorem raiseError_src (st : Status) (s : State) : (raiseError st s).src = s.src := rfl
@[simp] theorem raiseError_dst (st : Status) (s : State) : (raiseError st s).dst = s.dst := rfl
@[simp] theorem raiseError_epoch (st : Status) (s : State) : (raiseError st s).epoch = s.epoch := rfl
@[simp] theorem raiseError_seed (st : Status) (s : State) : (raiseError st s).seed = s.seed := rfl

/-! ## `latchCksum` -/

@[simp] theorem latchCksum_ckA (length blen : Word) (s : State) : (latchCksum length blen s).ckA = s.ckA := rfl
@[simp] theorem latchCksum_ckB (length blen : Word) (s : State) : (latchCksum length blen s).ckB = s.ckB := rfl
@[simp] theorem latchCksum_cls (length blen : Word) (s : State) : (latchCksum length blen s).cls = s.cls := rfl
@[simp] theorem latchCksum_idb (length blen : Word) (s : State) : (latchCksum length blen s).idb = s.idb := rfl
@[simp] theorem latchCksum_poll (length blen : Word) (s : State) : (latchCksum length blen s).poll = s.poll := rfl
@[simp] theorem latchCksum_len (length blen : Word) (s : State) : (latchCksum length blen s).len = s.len := rfl
@[simp] theorem latchCksum_cap (length blen : Word) (s : State) : (latchCksum length blen s).cap = blen := rfl
@[simp] theorem latchCksum_cnt (length blen : Word) (s : State) : (latchCksum length blen s).cnt = length := rfl
@[simp] theorem latchCksum_off (length blen : Word) (s : State) : (latchCksum length blen s).off = 0 := rfl
@[simp] theorem latchCksum_nfr (length blen : Word) (s : State) : (latchCksum length blen s).nfr = s.nfr := rfl
@[simp] theorem latchCksum_plen (length blen : Word) (s : State) : (latchCksum length blen s).plen = s.plen := rfl
@[simp] theorem latchCksum_pbuf (length blen : Word) (s : State) : (latchCksum length blen s).pbuf = s.pbuf := rfl
@[simp] theorem latchCksum_ph (length blen : Word) (s : State) : (latchCksum length blen s).ph = s.ph := rfl
@[simp] theorem latchCksum_op (length blen : Word) (s : State) : (latchCksum length blen s).op = .cksum := rfl
@[simp] theorem latchCksum_response (length blen : Word) (s : State) : (latchCksum length blen s).response = s.response := rfl
@[simp] theorem latchCksum_cmd (length blen : Word) (s : State) : (latchCksum length blen s).cmd = s.cmd := rfl
@[simp] theorem latchCksum_fld (length blen : Word) (s : State) : (latchCksum length blen s).fld = s.fld := rfl
@[simp] theorem latchCksum_rsp (length blen : Word) (s : State) : (latchCksum length blen s).rsp = s.rsp := rfl
@[simp] theorem latchCksum_acc (length blen : Word) (s : State) : (latchCksum length blen s).acc = s.acc := rfl
@[simp] theorem latchCksum_mem (length blen : Word) (s : State) : (latchCksum length blen s).mem = s.mem := rfl
@[simp] theorem latchCksum_src (length blen : Word) (s : State) : (latchCksum length blen s).src = s.src := rfl
@[simp] theorem latchCksum_dst (length blen : Word) (s : State) : (latchCksum length blen s).dst = s.dst := rfl
@[simp] theorem latchCksum_epoch (length blen : Word) (s : State) : (latchCksum length blen s).epoch = s.epoch := rfl
@[simp] theorem latchCksum_seed (length blen : Word) (s : State) : (latchCksum length blen s).seed = s.seed := rfl

/-! ## `latchBuild` -/

@[simp] theorem latchBuild_ckA (cap nf : Word) (cls id : Byte) (poll : Bool) (s : State) : (latchBuild cap nf cls id poll s).ckA = s.ckA := rfl
@[simp] theorem latchBuild_ckB (cap nf : Word) (cls id : Byte) (poll : Bool) (s : State) : (latchBuild cap nf cls id poll s).ckB = s.ckB := rfl
@[simp] theorem latchBuild_cls (cap nf : Word) (cls id : Byte) (poll : Bool) (s : State) : (latchBuild cap nf cls id poll s).cls = cls := rfl
@[simp] theorem latchBuild_idb (cap nf : Word) (cls id : Byte) (poll : Bool) (s : State) : (latchBuild cap nf cls id poll s).idb = id := rfl
@[simp] theorem latchBuild_poll (cap nf : Word) (cls id : Byte) (poll : Bool) (s : State) : (latchBuild cap nf cls id poll s).poll = poll := rfl
@[simp] theorem latchBuild_len (cap nf : Word) (cls id : Byte) (poll : Bool) (s : State) : (latchBuild cap nf cls id poll s).len = s.len := rfl
@[simp] theorem latchBuild_cap (cap nf : Word) (cls id : Byte) (poll : Bool) (s : State) : (latchBuild cap nf cls id poll s).cap = cap := rfl
@[simp] theorem latchBuild_cnt (cap nf : Word) (cls id : Byte) (poll : Bool) (s : State) : (latchBuild cap nf cls id poll s).cnt = s.cnt := rfl
@[simp] theorem latchBuild_off (cap nf : Word) (cls id : Byte) (poll : Bool) (s : State) : (latchBuild cap nf cls id poll s).off = s.off := rfl
@[simp] theorem latchBuild_nfr (cap nf : Word) (cls id : Byte) (poll : Bool) (s : State) : (latchBuild cap nf cls id poll s).nfr = nf := rfl
@[simp] theorem latchBuild_plen (cap nf : Word) (cls id : Byte) (poll : Bool) (s : State) : (latchBuild cap nf cls id poll s).plen = 0 := rfl
@[simp] theorem latchBuild_pbuf (cap nf : Word) (cls id : Byte) (poll : Bool) (s : State) : (latchBuild cap nf cls id poll s).pbuf = s.pbuf := rfl
@[simp] theorem latchBuild_ph (cap nf : Word) (cls id : Byte) (poll : Bool) (s : State) : (latchBuild cap nf cls id poll s).ph = .load := rfl
@[simp] theorem latchBuild_op (cap nf : Word) (cls id : Byte) (poll : Bool) (s : State) : (latchBuild cap nf cls id poll s).op = .build := rfl
@[simp] theorem latchBuild_response (cap nf : Word) (cls id : Byte) (poll : Bool) (s : State) : (latchBuild cap nf cls id poll s).response = s.response := rfl
@[simp] theorem latchBuild_cmd (cap nf : Word) (cls id : Byte) (poll : Bool) (s : State) : (latchBuild cap nf cls id poll s).cmd = s.cmd := rfl
@[simp] theorem latchBuild_fld (cap nf : Word) (cls id : Byte) (poll : Bool) (s : State) : (latchBuild cap nf cls id poll s).fld = s.fld := rfl
@[simp] theorem latchBuild_rsp (cap nf : Word) (cls id : Byte) (poll : Bool) (s : State) : (latchBuild cap nf cls id poll s).rsp = s.rsp := rfl
@[simp] theorem latchBuild_acc (cap nf : Word) (cls id : Byte) (poll : Bool) (s : State) : (latchBuild cap nf cls id poll s).acc = s.acc := rfl
@[simp] theorem latchBuild_mem (cap nf : Word) (cls id : Byte) (poll : Bool) (s : State) : (latchBuild cap nf cls id poll s).mem = s.mem := rfl
@[simp] theorem latchBuild_src (cap nf : Word) (cls id : Byte) (poll : Bool) (s : State) : (latchBuild cap nf cls id poll s).src = s.src := rfl
@[simp] theorem latchBuild_dst (cap nf : Word) (cls id : Byte) (poll : Bool) (s : State) : (latchBuild cap nf cls id poll s).dst = s.dst := rfl
@[simp] theorem latchBuild_epoch (cap nf : Word) (cls id : Byte) (poll : Bool) (s : State) : (latchBuild cap nf cls id poll s).epoch = s.epoch := rfl
@[simp] theorem latchBuild_seed (cap nf : Word) (cls id : Byte) (poll : Bool) (s : State) : (latchBuild cap nf cls id poll s).seed = s.seed := rfl

/-! ## `absorbAll` -/

@[simp] theorem absorbAll_nil (s : State) : absorbAll [] s = s := rfl

@[simp] theorem absorbAll_cons (d : Byte) (ds : List Byte) (s : State) :
    absorbAll (d :: ds) s = absorbAll ds (absorb d s) := rfl

theorem absorbAll_append (bs cs : List Byte) (s : State) :
    absorbAll (bs ++ cs) s = absorbAll cs (absorbAll bs s) := by
  induction bs generalizing s with
  | nil => rfl
  | cons b bs ih => simp [ih]

/-- Absorbing bytes changes the register pair and nothing else. -/
theorem absorbAll_eq (bs : List Byte) (s : State) :
    absorbAll bs s = { s with ckA := (absorbAll bs s).ckA, ckB := (absorbAll bs s).ckB } := by
  induction bs generalizing s with
  | nil => rfl
  | cons b bs ih => rw [absorbAll_cons, ih]; rfl

@[simp] theorem absorbAll_cls (bs : List Byte) (s : State) : (absorbAll bs s).cls = s.cls := by rw [absorbAll_eq]
@[simp] theorem absorbAll_idb (bs : List Byte) (s : State) : (absorbAll bs s).idb = s.idb := by rw [absorbAll_eq]
@[simp] theorem absorbAll_poll (bs : List Byte) (s : State) : (absorbAll bs s).poll = s.poll := by rw [absorbAll_eq]
@[simp] theorem absorbAll_len (bs : List Byte) (s : State) : (absorbAll bs s).len = s.len := by rw [absorbAll_eq]
@[simp] theorem absorbAll_cap (bs : List Byte) (s : State) : (absorbAll bs s).cap = s.cap := by rw [absorbAll_eq]
@[simp] theorem absorbAll_cnt (bs : List Byte) (s : State) : (absorbAll bs s).cnt = s.cnt := by rw [absorbAll_eq]
@[simp] theorem absorbAll_off (bs : List Byte) (s : State) : (absorbAll bs s).off = s.off := by rw [absorbAll_eq]
@[simp] theorem absorbAll_nfr (bs : List Byte) (s : State) : (absorbAll bs s).nfr = s.nfr := by rw [absorbAll_eq]
@[simp] theorem absorbAll_plen (bs : List Byte) (s : State) : (absorbAll bs s).plen = s.plen := by rw [absorbAll_eq]
@[simp] theorem absorbAll_pbuf (bs : List Byte) (s : State) : (absorbAll bs s).pbuf = s.pbuf := by rw [absorbAll_eq]
@[simp] theorem absorbAll_ph (bs : List Byte) (s : State) : (absorbAll bs s).ph = s.ph := by rw [absorbAll_eq]
@[simp] theorem absorbAll_op (bs : List Byte) (s : State) : (absorbAll bs s).op = s.op := by rw [absorbAll_eq]
@[simp] theorem absorbAll_response (bs : List Byte) (s : State) : (absorbAll bs s).response = s.response := by rw [absorbAll_eq]
@[simp] theorem absorbAll_cmd (bs : List Byte) (s : State) : (absorbAll bs s).cmd = s.cmd := by rw [absorbAll_eq]
@[simp] theorem absorbAll_fld (bs : List Byte) (s : State) : (absorbAll bs s).fld = s.fld := by rw [absorbAll_eq]
@[simp] theorem absorbAll_rsp (bs : List Byte) (s : State) : (absorbAll bs s).rsp = s.rsp := by rw [absorbAll_eq]
@[simp] theorem absorbAll_acc (bs : List Byte) (s : State) : (absorbAll bs s).acc = s.acc := by rw [absorbAll_eq]
@[simp] theorem absorbAll_mem (bs : List Byte) (s : State) : (absorbAll bs s).mem = s.mem := by rw [absorbAll_eq]
@[simp] theorem absorbAll_src (bs : List Byte) (s : State) : (absorbAll bs s).src = s.src := by rw [absorbAll_eq]
@[simp] theorem absorbAll_dst (bs : List Byte) (s : State) : (absorbAll bs s).dst = s.dst := by rw [absorbAll_eq]
@[simp] theorem absorbAll_epoch (bs : List Byte) (s : State) : (absorbAll bs s).epoch = s.epoch := by rw [absorbAll_eq]
@[simp] theorem absorbAll_seed (bs : List Byte) (s : State) : (absorbAll bs s).seed = s.seed := by rw [absorbAll_eq]

end Sys2Proof.Machine
end

