-- ==== Sys2Proof/Laws/Decode.lean ====
section
/-! SUPPORT. Fields of encoded bundles, and what a bundle's fields are as numbers. -/

namespace Sys2Proof

theorem extract_atBit {W lo w : Nat} (v : BitVec w) (h : lo + w ≤ W) : (atBit W lo v).extractLsb' lo w = v := by
  apply BitVec.eq_of_getLsbD_eq
  intro k hk
  have h1 : lo + k < W := by omega
  simp [atBit, h1, hk]

theorem extract_atBit_above {W lo w lo' w' : Nat} (v : BitVec w) (h : lo + w ≤ lo') :
    (atBit W lo v).extractLsb' lo' w' = 0#w' := by
  apply BitVec.eq_of_getLsbD_eq
  intro k hk
  simp only [atBit, BitVec.getLsbD_extractLsb', BitVec.getLsbD_shiftLeft, BitVec.getLsbD_setWidth, BitVec.getLsbD_zero]
  have : v.getLsbD (lo' + k - lo) = false := BitVec.getLsbD_of_ge v _ (by omega)
  simp [this]

theorem extract_atBit_below {W lo w lo' w' : Nat} (v : BitVec w) (h : lo' + w' ≤ lo) :
    (atBit W lo v).extractLsb' lo' w' = 0#w' := by
  apply BitVec.eq_of_getLsbD_eq
  intro k hk
  have : lo' + k < lo := by omega
  simp [atBit, this]

theorem bit_atBit_above {W lo w n : Nat} (v : BitVec w) (h : lo + w ≤ n) : (atBit W lo v).getLsbD n = false := by
  have : v.getLsbD (n - lo) = false := BitVec.getLsbD_of_ge v _ (by omega)
  simp [atBit, this]

theorem bit_atBit_below {W lo w n : Nat} (v : BitVec w) (h : n < lo) : (atBit W lo v).getLsbD n = false := by
  simp [atBit, h]

theorem bit_atBit_bool {W lo : Nat} (b : Bool) (h : lo < W) : (atBit W lo (BitVec.ofBool b)).getLsbD lo = b := by
  cases b <;> simp [atBit, h]

section
variable (op : BitVec 2) (poll : Bool) (cls id : Byte) (n m : Word)

@[simp] theorem cmdOp_cmdBundle : cmdOp (cmdBundle op poll cls id n m) = op := by
  simp [cmdOp, cmdBundle, BitVec.extractLsb'_or, extract_atBit, extract_atBit_below]

@[simp] theorem cmdPoll_cmdBundle : cmdPoll (cmdBundle op poll cls id n m) = poll := by
  simp only [cmdPoll, cmdBundle, BitVec.getLsbD_or]
  rw [bit_atBit_above, bit_atBit_bool, bit_atBit_below, bit_atBit_below, bit_atBit_below, bit_atBit_below] <;> simp

@[simp] theorem cmdCls_cmdBundle : cmdCls (cmdBundle op poll cls id n m) = cls := by
  simp [cmdCls, cmdBundle, BitVec.extractLsb'_or, extract_atBit, extract_atBit_below, extract_atBit_above]

@[simp] theorem cmdId_cmdBundle : cmdId (cmdBundle op poll cls id n m) = id := by
  simp [cmdId, cmdBundle, BitVec.extractLsb'_or, extract_atBit, extract_atBit_below, extract_atBit_above]

@[simp] theorem cmdN_cmdBundle : cmdN (cmdBundle op poll cls id n m) = n := by
  simp [cmdN, cmdBundle, BitVec.extractLsb'_or, extract_atBit, extract_atBit_below, extract_atBit_above]

@[simp] theorem cmdM_cmdBundle : cmdM (cmdBundle op poll cls id n m) = m := by
  simp [cmdM, cmdBundle, BitVec.extractLsb'_or, extract_atBit, extract_atBit_above]

end

@[simp] theorem fldKind_fldBundle (k : BitVec 4) (v : BitVec 64) : fldKind (fldBundle k v) = k := by
  simp [fldKind, fldBundle, BitVec.extractLsb'_or, extract_atBit, extract_atBit_below]

@[simp] theorem fldVal_fldBundle (k : BitVec 4) (v : BitVec 64) : fldVal (fldBundle k v) = v := by
  simp [fldVal, fldBundle, BitVec.extractLsb'_or, extract_atBit, extract_atBit_above]

section
variable (clr en : Bool) (d : Byte)

@[simp] theorem accClrBit_accBundle : accClrBit (accBundle clr en d) = clr := by
  simp only [accClrBit, accBundle, BitVec.getLsbD_or]
  rw [bit_atBit_bool, bit_atBit_above, bit_atBit_above] <;> simp

@[simp] theorem accEnBit_accBundle : accEnBit (accBundle clr en d) = en := by
  simp only [accEnBit, accBundle, BitVec.getLsbD_or]
  rw [bit_atBit_below, bit_atBit_bool, bit_atBit_above] <;> simp

@[simp] theorem accData_accBundle : accData (accBundle clr en d) = d := by
  simp [accData, accBundle, BitVec.extractLsb'_or, extract_atBit, extract_atBit_below]

end

@[simp] theorem ofCode_code (k : FieldKind) : FieldKind.ofCode k.code = some k := by cases k <;> rfl

/-- The beat of a field decodes to that field. -/
@[simp] theorem decodeFld_beat (f : Field) : decodeFld f.beat = .ok f := by
  simp [decodeFld, Field.beat]

/-- The kind codes 0 to 8 name a kind and 9 to 15 none (R60, R65). -/
theorem ofCode_eq_none_iff (k : BitVec 4) : FieldKind.ofCode k = none ↔ 9 ≤ k.toNat := by
  revert k; decide

@[simp] theorem decodeAcc_accBundle (clr en : Bool) (d : Byte) :
    decodeAcc (accBundle clr en d) = if clr then .clr else if en then .abs d else .hold := by
  simp [decodeAcc]

/-! ## Fields as numbers -/

theorem cmdOp_toNat (w : CmdBeat) : (cmdOp w).toNat = w.toNat % 4 := by
  simp [cmdOp, BitVec.extractLsb'_toNat]

theorem fldKind_toNat (w : FldBeat) : (fldKind w).toNat = w.toNat % 16 := by
  simp [fldKind, BitVec.extractLsb'_toNat]

theorem extractLsb'_eq_ofNat {W : Nat} (w : BitVec W) (lo n : Nat) :
    w.extractLsb' lo n = BitVec.ofNat n (w.toNat / 2 ^ lo) := by
  apply BitVec.eq_of_toNat_eq
  simp [BitVec.extractLsb'_toNat, Nat.shiftRight_eq_div_pow]

end Sys2Proof
end

