-- ==== Sys2Proof/Laws/Memory.lean ====
section
/-! SUPPORT. Memory: read after write, the canonical form, and that a canonical memory is determined by
what its addresses read as. -/

namespace Sys2Proof.Machine

@[simp] theorem Memory.read_nil (a : Nat) : Memory.read [] a = Memory.unlisted := rfl

theorem Memory.wfFrom_mono {lo lo' : Nat} {m : Memory} (h : lo' ≤ lo) (w : Memory.wfFrom lo m = true) :
    Memory.wfFrom lo' m = true := by
  cases m with
  | nil => rfl
  | cons c m => simp_all [Memory.wfFrom]; omega

/-- Below the first address a canonical list may hold, every byte reads as unlisted. -/
theorem Memory.read_below {lo a : Nat} {m : Memory} (w : Memory.wfFrom lo m = true) (h : a < lo) :
    m.read a = Memory.unlisted := by
  induction m generalizing lo with
  | nil => rfl
  | cons c m ih =>
    obtain ⟨k, b⟩ := c
    simp only [Memory.wfFrom, Bool.and_eq_true, decide_eq_true_eq] at w
    have hk : k ≠ a := by omega
    simpa [Memory.read, hk] using ih w.2 (by omega)

theorem Memory.read_put (a : Nat) (v : Byte) (m : Memory) (x : Nat) (h : m.read a = Memory.unlisted) :
    (Memory.put a v m).read x = if x = a then v else m.read x := by
  unfold Memory.put
  split <;> by_cases hx : x = a <;> simp_all [Memory.read, eq_comm]

/-- A write gives the written byte at its address and leaves every other address alone, in any memory
whose addresses rise. -/
theorem Memory.read_write_from {lo : Nat} {m : Memory} (w : Memory.wfFrom lo m = true) (a : Nat) (v : Byte) (x : Nat) :
    (m.write a v).read x = if x = a then v else m.read x := by
  induction m generalizing lo with
  | nil => exact Memory.read_put a v [] x rfl
  | cons c m ih =>
    obtain ⟨k, b⟩ := c
    simp only [Memory.wfFrom, Bool.and_eq_true, decide_eq_true_eq] at w
    unfold Memory.write
    split
    · next h =>
      refine Memory.read_put a v _ x ?_
      have hk : k ≠ a := by omega
      simpa [Memory.read, hk] using Memory.read_below w.2 (by omega)
    · split
      · next h =>
        subst h
        rw [Memory.read_put a v m x (Memory.read_below w.2 (by omega))]
        by_cases hx : x = a
        · simp [hx]
        · simp [Memory.read, hx, Ne.symm hx]
      · next h1 h2 =>
        by_cases hk : k = x
        · have : x ≠ a := by omega
          simp [Memory.read, hk, this]
        · simp [Memory.read, hk, ih w.2]

theorem Memory.wfFrom_put {lo a : Nat} {v : Byte} {m : Memory} (h : lo ≤ a) (w : Memory.wfFrom (a + 1) m = true) :
    Memory.wfFrom lo (Memory.put a v m) = true := by
  unfold Memory.put
  split
  · exact Memory.wfFrom_mono (by omega) w
  · simp_all [Memory.wfFrom]

theorem Memory.wfFrom_write {lo a : Nat} {v : Byte} {m : Memory} (h : lo ≤ a) (w : Memory.wfFrom lo m = true) :
    Memory.wfFrom lo (m.write a v) = true := by
  induction m generalizing lo with
  | nil => exact Memory.wfFrom_put h rfl
  | cons c m ih =>
    obtain ⟨k, b⟩ := c
    have w' := w
    simp only [Memory.wfFrom, Bool.and_eq_true, decide_eq_true_eq] at w
    unfold Memory.write
    split
    · next hk => exact Memory.wfFrom_put h (by simp_all [Memory.wfFrom])
    · split
      · next hk => subst hk; exact Memory.wfFrom_put h w.2
      · next h1 h2 => simp [Memory.wfFrom, w.1, ih (lo := k + 1) (by omega) w.2]

/-- A store keeps the canonical form. -/
theorem Memory.wf_write {m : Memory} (w : m.wf = true) (a : Nat) (v : Byte) : (m.write a v).wf = true :=
  Memory.wfFrom_write (Nat.zero_le a) w

theorem Memory.read_write {m : Memory} (w : m.wf = true) (a : Nat) (v : Byte) (x : Nat) :
    (m.write a v).read x = if x = a then v else m.read x := Memory.read_write_from w a v x

/-- Canonical memories that read alike above `lo` are the same list. -/
theorem Memory.ext_from {lo : Nat} {m m' : Memory} (w : Memory.wfFrom lo m = true) (w' : Memory.wfFrom lo m' = true)
    (h : ∀ a, m.read a = m'.read a) : m = m' := by
  induction m generalizing lo m' with
  | nil =>
    cases m' with
    | nil => rfl
    | cons c' m' =>
      obtain ⟨k', b'⟩ := c'
      simp only [Memory.wfFrom, Bool.and_eq_true, decide_eq_true_eq] at w'
      exact absurd (by simpa [Memory.read] using (h k').symm) w'.1.2
  | cons c m ih =>
    obtain ⟨k, b⟩ := c
    simp only [Memory.wfFrom, Bool.and_eq_true, decide_eq_true_eq] at w
    cases m' with
    | nil => exact absurd (by simpa [Memory.read] using h k) w.1.2
    | cons c' m' =>
      obtain ⟨k', b'⟩ := c'
      simp only [Memory.wfFrom, Bool.and_eq_true, decide_eq_true_eq] at w'
      have hkk : k = k' := by
        rcases Nat.lt_trichotomy k k' with hlt | heq | hgt
        · have h1 := h k
          have h2 := Memory.read_below w'.2 (show k < k' + 1 by omega)
          have h3 : k' ≠ k := by omega
          simp [Memory.read, h3, h2] at h1
          exact absurd h1 w.1.2
        · exact heq
        · have h1 := h k'
          have h2 := Memory.read_below w.2 (show k' < k + 1 by omega)
          have h3 : k ≠ k' := by omega
          simp [Memory.read, h3, h2] at h1
          exact absurd h1.symm w'.1.2
      subst hkk
      have hb : b = b' := by simpa [Memory.read] using h k
      subst hb
      refine congrArg _ (ih w.2 w'.2 fun a => ?_)
      by_cases ha : a < k + 1
      · rw [Memory.read_below w.2 ha, Memory.read_below w'.2 ha]
      · have h1 : k ≠ a := by omega
        simpa [Memory.read, h1] using h a

end Sys2Proof.Machine
end

