-- ==== Sys2Proof/Laws/Checksum.lean ====
section
/-! SUPPORT. The Fletcher fold and the range reader. -/

namespace Sys2Proof.Machine

/-- The fold of R74 from a given register pair. -/
def fletcherFrom (p : Byte × Byte) (bs : List Byte) : Byte × Byte :=
  bs.foldl (fun p d => (p.1 + d, p.2 + (p.1 + d))) p

theorem fletcher8_eq_from (bs : List Byte) : fletcher8 bs = fletcherFrom (0, 0) bs := rfl

@[simp] theorem fletcherFrom_nil (p : Byte × Byte) : fletcherFrom p [] = p := rfl

@[simp] theorem fletcherFrom_cons (p : Byte × Byte) (d : Byte) (bs : List Byte) :
    fletcherFrom p (d :: bs) = fletcherFrom (p.1 + d, p.2 + (p.1 + d)) bs := rfl

theorem fletcherFrom_append (p : Byte × Byte) (bs cs : List Byte) :
    fletcherFrom p (bs ++ cs) = fletcherFrom (fletcherFrom p bs) cs := by simp [fletcherFrom]

/-- Where the fold starts enters the result linearly: once in A, once a byte in B. -/
theorem fletcherFrom_start (p : Byte × Byte) (bs : List Byte) :
    fletcherFrom p bs =
      (p.1 + (fletcher8 bs).1, p.2 + BitVec.ofNat 8 bs.length * p.1 + (fletcher8 bs).2) := by
  suffices h : ∀ (q : Byte × Byte), fletcherFrom (p.1 + q.1, p.2 + q.2) bs =
      (p.1 + (fletcherFrom q bs).1, p.2 + BitVec.ofNat 8 bs.length * p.1 + (fletcherFrom q bs).2) by
    simpa [fletcher8_eq_from] using h (0, 0)
  induction bs generalizing p with
  | nil => intro q; simp
  | cons d ds ih =>
    intro q
    rw [fletcherFrom_cons, fletcherFrom_cons]
    have h := ih (p.1, p.2 + p.1) (q.1 + d, q.2 + (q.1 + d))
    have e : (p.1 + q.1 + d, p.2 + q.2 + (p.1 + q.1 + d)) =
        (p.1 + (q.1 + d), p.2 + p.1 + (q.2 + (q.1 + d))) := by
      refine Prod.ext ?_ ?_ <;> simp only <;> ring
    simp only [e, h]
    refine Prod.ext rfl ?_
    simp only [List.length_cons, BitVec.ofNat_add, show (1#8) = (1 : Byte) from rfl]
    ring

/-- Absorbing a list leaves the fold of R74 in the register pair. -/
theorem absorbAll_pair (bs : List Byte) (s : State) :
    ((absorbAll bs s).ckA, (absorbAll bs s).ckB) = fletcherFrom (s.ckA, s.ckB) bs := by
  induction bs generalizing s with
  | nil => rfl
  | cons d ds ih => simpa using ih (absorb d s)

@[simp] theorem absorbAll_clear_ckA (bs : List Byte) (s : State) :
    (absorbAll bs (clearAcc s)).ckA = (fletcher8 bs).1 := congrArg Prod.fst (absorbAll_pair bs (clearAcc s))

@[simp] theorem absorbAll_clear_ckB (bs : List Byte) (s : State) :
    (absorbAll bs (clearAcc s)).ckB = (fletcher8 bs).2 := congrArg Prod.snd (absorbAll_pair bs (clearAcc s))

/-- Clear and absorb leaves `fletcher8` in the pair and everything else alone. -/
theorem absorbAll_clear (bs : List Byte) (s : State) :
    absorbAll bs (clearAcc s) = { s with ckA := (fletcher8 bs).1, ckB := (fletcher8 bs).2 } := by
  rw [absorbAll_eq, absorbAll_clear_ckA, absorbAll_clear_ckB]
  rfl

/-! ## The range reader -/

/-- The range reader inside the bound buffer absorbs the bytes of the range. -/
theorem absorbRange_inside (n off : Nat) (s : State) (h : off + n ≤ s.src.size) :
    absorbRange n off s =
      .next (absorbAll ((List.range' off n).map fun k => s.mem.read (s.src.base + k)) s) := by
  induction n generalizing off s with
  | zero => rfl
  | succ n ih =>
    have h1 : off < s.src.size := by omega
    simp only [absorbRange, readSrc, h1, if_true]
    rw [ih (off + 1) _ (by simp; omega)]
    simp [List.range'_succ]

/-- A range that leaves the bound buffer is refused. -/
theorem absorbRange_outside (n off : Nat) (s : State) (h : s.src.size < off + n) (h0 : off ≤ s.src.size) :
    absorbRange n off s = .refused .srcOverrun := by
  induction n generalizing off s with
  | zero => omega
  | succ n ih =>
    by_cases h1 : off < s.src.size
    · simp only [absorbRange, readSrc, h1, if_true]
      exact ih (off + 1) _ (by simp; omega) (by simp; omega)
    · simp [absorbRange, readSrc, h1]

theorem absorbRange_from_zero (n : Nat) (s : State) (h : n ≤ s.src.size) :
    absorbRange n 0 s = .next (absorbAll (srcBytes n s) s) := by
  rw [absorbRange_inside n 0 s (by omega), srcBytes, List.range_eq_range']

@[simp] theorem srcBytes_clearAcc (n : Nat) (s : State) : srcBytes n (clearAcc s) = srcBytes n s := rfl

@[simp] theorem srcBytes_latchCksum (n : Nat) (l b : Word) (s : State) :
    srcBytes n (latchCksum l b s) = srcBytes n s := rfl

/-- The range reader neither reads nor changes `OFF`. -/
theorem absorbRange_off (n o : Nat) (u : State) (x y : Word) :
    (andThen (absorbRange n o { u with off := x }) fun t => .next { t with off := y }) =
      andThen (absorbRange n o u) fun t => .next { t with off := y } := by
  induction n generalizing o u with
  | zero => rfl
  | succ n ih =>
    simp only [absorbRange]
    rw [show readSrc o { u with off := x } = readSrc o u from rfl]
    cases readSrc o u with
    | error r => rfl
    | ok b => exact ih _ (absorb b u)

/-! ## The outcomes of CKSUM -/

/-- The range lies in the buffer: the checksum and its response. -/
theorem execCksum_ok (s : State) (length blen : Word) (h : length.toNat ≤ blen.toNat)
    (hs : length.toNat ≤ s.src.size) :
    execCksum length blen s = .next { s with
      op := .cksum, cnt := length, cap := blen, off := length, ph := .idle, response := none
      ckA := (fletcher8 (srcBytes length.toNat s)).1
      ckB := (fletcher8 (srcBytes length.toNat s)).2
      rsp := s.rsp ++ [Rsp.beat ⟨.ok, (fletcher8 (srcBytes length.toNat s)).1,
        (fletcher8 (srcBytes length.toNat s)).2, length⟩] } := by
  have hi : invalidRange length blen = false := by simp [invalidRange, h]
  simp only [execCksum, hi]
  rw [absorbRange_from_zero _ _ (by simpa using hs)]
  simp only [srcBytes_clearAcc, srcBytes_latchCksum, absorbAll_clear, andThen_next, Bool.false_eq_true, if_false]
  rfl

/-- The range check fails: one error response. -/
theorem execCksum_invalid (s : State) (length blen : Word) (h : blen.toNat < length.toNat) :
    execCksum length blen s = .next { s with
      op := .cksum, cnt := length, cap := blen, off := 0, ph := .idle, response := none
      rsp := s.rsp ++ [Rsp.beat ⟨.invalidRange, 0, 0, 0⟩] } := by
  have hi : invalidRange length blen = true := by simp [invalidRange, h]
  simp only [execCksum, hi]
  rfl

/-- The range passes the check and leaves the buffer really bound. -/
theorem execCksum_overrun (s : State) (length blen : Word) (h : length.toNat ≤ blen.toNat)
    (hs : s.src.size < length.toNat) : execCksum length blen s = .refused .srcOverrun := by
  have hi : invalidRange length blen = false := by simp [invalidRange, h]
  simp only [execCksum, hi]
  rw [absorbRange_outside _ _ _ (by simpa using hs) (Nat.zero_le _)]
  rfl

end Sys2Proof.Machine
end

