-- ==== Sys2Proof/Laws/Fields.lean ====
section
/-! SUPPORT. Serialisation, the staging buffer and the field kinds. -/

namespace Sys2Proof.Machine

/-! ## Serialisation -/

@[simp] theorem leBytes_length (n : Nat) {w : Nat} (v : BitVec w) : (leBytes n v).length = n := by
  simp [leBytes]

/-- Byte `i` of `le_bytes(v, n)` is bits `8i+7 .. 8i` of `v` (R9). -/
theorem leBytes_getD {n i w : Nat} (v : BitVec w) (h : i < n) : (leBytes n v).getD i 0 = v.extractLsb' (8 * i) 8 := by
  simp [leBytes, List.getD, h]

/-- The bytes of the low `8n` bits of a value do not depend on the bits above (R60). -/
theorem leBytes_extract (n w : Nat) (v : BitVec w) : leBytes n (v.extractLsb' 0 (8 * n)) = leBytes n v := by
  refine List.map_congr_left fun i hi => ?_
  have hi := List.mem_range.1 hi
  refine BitVec.eq_of_getLsbD_eq fun k hk => ?_
  have : 8 * i + k < 8 * n := by omega
  simp [hk, this]

@[simp] theorem ser_length (f : Field) : (ser f).length = f.1.bytes := leBytes_length _ _

@[simp] theorem serAll_nil : serAll [] = [] := rfl

@[simp] theorem serAll_cons (f : Field) (F : List Field) : serAll (f :: F) = ser f ++ serAll F := by
  simp [serAll]

theorem serAll_append (F G : List Field) : serAll (F ++ G) = serAll F ++ serAll G := by simp [serAll]

@[simp] theorem payloadSize_nil : payloadSize [] = 0 := rfl

@[simp] theorem payloadSize_cons (f : Field) (F : List Field) :
    payloadSize (f :: F) = f.1.bytes + payloadSize F := by simp [payloadSize]

@[simp] theorem serAll_length (F : List Field) : (serAll F).length = payloadSize F := by
  induction F with
  | nil => rfl
  | cons f F ih => simp [ih]

theorem fieldBytes_pos (k : FieldKind) : 0 < k.bytes := by cases k <;> decide

/-- Every field has at least one byte. -/
theorem length_le_payloadSize (F : List Field) : F.length ≤ payloadSize F := by
  induction F with
  | nil => exact Nat.le_refl 0
  | cons f F ih => have := fieldBytes_pos f.1; simp; omega

/-! ## The staging buffer -/

@[simp] theorem pbufBytes_length (n : Nat) (s : State) : (pbufBytes n s).length = n := by simp [pbufBytes]

/-- What has been staged is read as it stands in the list. -/
theorem pbufBytes_take (n : Nat) (s : State) (h : n ≤ s.pbuf.length) : pbufBytes n s = s.pbuf.take n := by
  apply List.ext_getElem
  · simp [h]
  · intro i h1 h2
    have : i < s.pbuf.length := by simp at h1; omega
    simp [pbufBytes, pbufRead, this]

theorem pbufRead_congr {s t : State} (h : s.pbuf = t.pbuf) (e : s.epoch = t.epoch) (d : s.seed = t.seed)
    (k : Nat) : pbufRead s k = pbufRead t k := by simp [pbufRead, h, e, d]

theorem pbufBytes_congr {s t : State} (h : s.pbuf = t.pbuf) (e : s.epoch = t.epoch) (d : s.seed = t.seed)
    (n : Nat) : pbufBytes n s = pbufBytes n t := by
  simp only [pbufBytes, funext (pbufRead_congr h e d)]

/-- Staging where the payload stays within 65535 bytes. -/
theorem stage_next (bs : List Byte) (s : State) (h : s.plen.toNat + bs.length ≤ 65535) :
    stage bs s = .next { s with
      pbuf := pbufBytes s.plen.toNat s ++ bs ++ s.pbuf.drop (s.plen.toNat + bs.length)
      plen := BitVec.ofNat 17 (s.plen.toNat + bs.length) } := by
  simp [stage, Nat.not_lt.2 h]

theorem stage_refused (bs : List Byte) (s : State) (h : 65535 < s.plen.toNat + bs.length) :
    stage bs s = .refused .payloadTooLarge := by simp [stage, h]

/-- Everything staging can do. -/
theorem stage_cases (bs : List Byte) (s : State) :
    (65535 < s.plen.toNat + bs.length ∧ stage bs s = .refused .payloadTooLarge) ∨
    (s.plen.toNat + bs.length ≤ 65535 ∧ ∃ t, stage bs s = .next t ∧
      t = { s with pbuf := t.pbuf, plen := t.plen } ∧ t.plen.toNat = s.plen.toNat + bs.length ∧
      t.pbuf = pbufBytes s.plen.toNat s ++ bs ++ s.pbuf.drop (s.plen.toNat + bs.length)) := by
  by_cases h : s.plen.toNat + bs.length ≤ 65535
  · refine .inr ⟨h, _, stage_next bs s h, rfl, ?_, rfl⟩
    simp only [BitVec.toNat_ofNat]
    omega
  · exact .inl ⟨by omega, stage_refused bs s (by omega)⟩

/-- What a byte of `PBUF` holds after staging: the new bytes at `PLEN` and up, the old ones elsewhere. -/
theorem pbufRead_staged {bs : List Byte} {s t : State} (e : t.epoch = s.epoch) (d : t.seed = s.seed)
    (h : t.pbuf = pbufBytes s.plen.toNat s ++ bs ++ s.pbuf.drop (s.plen.toNat + bs.length)) (k : Nat) :
    pbufRead t k =
      if k < s.plen.toNat then pbufRead s k
      else if k < s.plen.toNat + bs.length then bs.getD (k - s.plen.toNat) 0
      else pbufRead s k := by
  have hlen : (pbufBytes s.plen.toNat s).length = s.plen.toNat := pbufBytes_length _ _
  simp only [pbufRead, h, e, d, List.getD]
  split
  · next hk =>
    rw [List.append_assoc, List.getElem?_append_left (by omega)]
    simp [pbufBytes, hk, pbufRead]
  · next hk =>
    split
    · next hk2 =>
      rw [List.getElem?_append_left (by simp; omega), List.getElem?_append_right (by omega), hlen]
      have : k - s.plen.toNat < bs.length := by omega
      simp [this]
    · next hk2 =>
      rw [List.getElem?_append_right (by simp; omega)]
      simp only [List.length_append, hlen, List.getElem?_drop]
      congr 2
      omega

/-- The first `PLEN` bytes after staging are the old ones and the new ones. -/
theorem pbufBytes_staged {bs : List Byte} {s t : State}
    (h : t.pbuf = pbufBytes s.plen.toNat s ++ bs ++ s.pbuf.drop (s.plen.toNat + bs.length)) :
    pbufBytes (s.plen.toNat + bs.length) t = pbufBytes s.plen.toNat s ++ bs := by
  rw [pbufBytes_take _ _ (by simp [h]), h, List.take_append_of_le_length (by simp), List.take_of_length_le (by simp)]

/-! ## The field kinds -/

/-- Every field kind stages its serialisation. -/
theorem runField_eq_stage (f : Field) (s : State) : runField f s = stage (ser f) s := by
  obtain ⟨k, v⟩ := f
  cases k <;> simp only [runField, execFldU8, execFldI8, execFldRaw, execFldU16, execFldI16, execFldU32,
    execFldI32, execFldF32, execFldF64, ser, FieldKind.bytes] <;>
    exact congrArg (stage · s) (leBytes_extract _ 64 v)

/-- Field intake runs a field as `exec` runs its instruction. -/
theorem runField_eq_exec (f : Field) (s : State) : runField f s = exec (Instr.ofField f) s := by
  obtain ⟨k, v⟩ := f
  cases k <;> rfl

/-- The instruction of a field stages its serialisation. -/
theorem exec_ofField (f : Field) (s : State) : exec (Instr.ofField f) s = stage (ser f) s := by
  rw [← runField_eq_exec, runField_eq_stage]

/-- A beat taken from the channel, decoded. -/
theorem takeBeat_beat (f : Field) (s : State) :
    takeBeat f.beat s = stage (ser f) { s with nfr := s.nfr - 1 } := by
  simp [takeBeat, runField_eq_stage]

end Sys2Proof.Machine
end

