-- ==== Sys2Proof/Laws/Packet.lean ====
section
/-! SUPPORT. Stores to `DST`, field intake, and what `BUILD` comes to in each of its cases. -/

namespace Sys2Proof.Machine

/-! ## Stores -/

/-- Memory after a run of bytes stored at ascending addresses. -/
def storeBytes : Memory → Nat → List Byte → Memory
  | m, _, [] => m
  | m, a, b :: bs => storeBytes (m.write a b) (a + 1) bs

theorem writeDst_inside {off : Nat} {b : Byte} {s : State} (h : off < s.dst.size) :
    writeDst off b s = .next { s with mem := s.mem.write (s.dst.base + off) b } := by simp [writeDst, h]

theorem writeDst_outside {off : Nat} {b : Byte} {s : State} (h : s.dst.size ≤ off) :
    writeDst off b s = .refused .dstOverrun := by simp [writeDst, h]

/-- A run of bytes that the bound buffer holds is stored. -/
theorem writeDstBytes_inside (bs : List Byte) (off : Nat) (s : State) (h : off + bs.length ≤ s.dst.size) :
    writeDstBytes off bs s = .next { s with mem := storeBytes s.mem (s.dst.base + off) bs } := by
  induction bs generalizing off s with
  | nil => rfl
  | cons b bs ih =>
    simp only [List.length_cons] at h
    rw [writeDstBytes, writeDst_inside (by omega), andThen_next, ih _ _ (by simp; omega)]
    rfl

/-- A run of bytes that the bound buffer does not hold is refused. -/
theorem writeDstBytes_outside (bs : List Byte) (off : Nat) (s : State) (h : s.dst.size < off + bs.length)
    (h0 : off ≤ s.dst.size) : writeDstBytes off bs s = .refused .dstOverrun := by
  induction bs generalizing off s with
  | nil => simp at h; omega
  | cons b bs ih =>
    simp only [List.length_cons] at h
    by_cases h1 : off < s.dst.size
    · rw [writeDstBytes, writeDst_inside h1, andThen_next]
      exact ih _ _ (by simp; omega) (by simp; omega)
    · rw [writeDstBytes, writeDst_outside (by omega), andThen_refused]

theorem storeBytes_append (m : Memory) (a : Nat) (bs cs : List Byte) :
    storeBytes m a (bs ++ cs) = storeBytes (storeBytes m a bs) (a + bs.length) cs := by
  induction bs generalizing m a with
  | nil => rfl
  | cons b bs ih =>
    simp only [List.cons_append, storeBytes, ih, List.length_cons]
    congr 1
    omega

theorem storeBytes_wf {m : Memory} (w : m.wf = true) (a : Nat) (bs : List Byte) : (storeBytes m a bs).wf = true := by
  induction bs generalizing m a with
  | nil => exact w
  | cons b bs ih => exact ih (Memory.wf_write w a b) _

/-- What an address reads as after a run of stores. -/
theorem storeBytes_read {m : Memory} (w : m.wf = true) (a : Nat) (bs : List Byte) (x : Nat) :
    (storeBytes m a bs).read x = if a ≤ x ∧ x < a + bs.length then bs.getD (x - a) 0 else m.read x := by
  induction bs generalizing m a with
  | nil => simp [storeBytes]
  | cons b bs ih =>
    rw [storeBytes, ih (Memory.wf_write w a b), Memory.read_write w]
    by_cases h : x = a
    · subst h; simp
    · by_cases h1 : a + 1 ≤ x ∧ x < a + 1 + bs.length
      · have h2 : a ≤ x ∧ x < a + (bs.length + 1) := by omega
        have h3 : x - a = (x - (a + 1)) + 1 := by omega
        simp [h1, h2, h3]
      · have h2 : ¬(a ≤ x ∧ x < a + (b :: bs).length) := by simp; omega
        rw [if_neg h1, if_neg h2, if_neg h]

/-- What the host reads back of a run of stored bytes. -/
theorem storeBytes_readBack {m : Memory} (w : m.wf = true) (a : Nat) (bs : List Byte) :
    ((List.range bs.length).map fun k => (storeBytes m a bs).read (a + k)) = bs := by
  apply List.ext_getElem
  · simp
  · intro i h1 h2
    simp [storeBytes_read w, h2]

/-! ## Packets -/

@[simp] theorem packetBody_length (cls id : Byte) (len : BitVec 16) (P : List Byte) :
    (packetBody cls id len P).length = 4 + P.length := by simp [packetBody]; omega

@[simp] theorem packet_length (cls id : Byte) (len : BitVec 16) (P : List Byte) :
    (packet cls id len P).length = 8 + P.length := by simp [packet]; omega

theorem lengthField_toNat {poll : Bool} {n : Nat} (h : n ≤ 65535) :
    (lengthField poll n).toNat = if poll then 0 else n := by
  cases poll <;> simp [lengthField]; omega

theorem packetCount_toNat (len : BitVec 16) : (packetCount len).toNat = 8 + len.toNat := by
  have := len.isLt
  simp [packetCount, Config.overhead]; omega

theorem bufferTooSmall_eq_false {cap : Word} {len : BitVec 16} :
    bufferTooSmall cap len = false ↔ 8 + len.toNat ≤ cap.toNat := by simp [bufferTooSmall]

theorem bufferTooSmall_eq_true {cap : Word} {len : BitVec 16} :
    bufferTooSmall cap len = true ↔ cap.toNat < 8 + len.toNat := by simp [bufferTooSmall]

/-! ## Field intake -/

/-- Taking the beats of fields that fit leaves the rest to take, `NFR` less, the bytes staged. -/
theorem intake_fields (F : List Field) (rest : List FldBeat) (s : State) (hn : F.length ≤ s.nfr.toNat)
    (hp : s.plen.toNat + payloadSize F ≤ 65535) :
    ∃ t, intake (F.map Field.beat ++ rest) s = intake rest t ∧
      t = { s with nfr := t.nfr, plen := t.plen, pbuf := t.pbuf } ∧
      t.nfr.toNat = s.nfr.toNat - F.length ∧ t.plen.toNat = s.plen.toNat + payloadSize F ∧
      pbufBytes t.plen.toNat t = pbufBytes s.plen.toNat s ++ serAll F := by
  induction F generalizing s with
  | nil => exact ⟨s, rfl, rfl, by simp, by simp, by simp⟩
  | cons f F ih =>
    simp only [List.length_cons] at hn
    simp only [payloadSize_cons] at hp
    have h0 : s.nfr ≠ 0 := by rintro h; simp [h] at hn
    have hsub : (s.nfr - 1).toNat = s.nfr.toNat - 1 := by
      rw [BitVec.toNat_sub_of_le (by simpa [BitVec.le_def] using (by omega : 1 ≤ s.nfr.toNat))]; rfl
    obtain ⟨hbig, -⟩ | ⟨-, u, hu, hu1, hu2, hu3⟩ := stage_cases (ser f) { s with nfr := s.nfr - 1 }
    · simp at hbig; omega
    · rw [ser_length] at hu2
      have hn' : u.nfr = s.nfr - 1 := by rw [hu1]
      obtain ⟨t, ht, ht1, ht2, ht3, ht4⟩ := ih u (by rw [hn', hsub]; omega) (by rw [hu2]; simp; omega)
      refine ⟨t, ?_, ?_, ?_, ?_, ?_⟩
      · rw [List.map_cons, List.cons_append, intake, if_neg h0, takeBeat_beat, hu, andThen_next, ht]
      · rw [ht1, hu1]
      · rw [ht2, hn', hsub]; simp; omega
      · rw [ht3, hu2]; simp; omega
      · rw [ht4, hu2, ← ser_length f, pbufBytes_staged hu3, serAll_cons, List.append_assoc]
        rfl

/-- A field list that does not fit is refused while it is taken. -/
theorem intake_too_large (F : List Field) (rest : List FldBeat) (s : State) (hn : F.length ≤ s.nfr.toNat)
    (h0 : s.plen.toNat ≤ 65535) (hp : 65535 < s.plen.toNat + payloadSize F) :
    intake (F.map Field.beat ++ rest) s = .refused .payloadTooLarge := by
  induction F generalizing s with
  | nil => simp at hp; omega
  | cons f F ih =>
    simp only [List.length_cons] at hn
    simp only [payloadSize_cons] at hp
    have hz : s.nfr ≠ 0 := by rintro h; simp [h] at hn
    have hsub : (s.nfr - 1).toNat = s.nfr.toNat - 1 := by
      rw [BitVec.toNat_sub_of_le (by simpa [BitVec.le_def] using (by omega : 1 ≤ s.nfr.toNat))]; rfl
    rw [List.map_cons, List.cons_append, intake, if_neg hz, takeBeat_beat]
    obtain ⟨-, h⟩ | ⟨hle, u, hu, hu1, hu2, hu3⟩ := stage_cases (ser f) { s with nfr := s.nfr - 1 }
    · rw [h, andThen_refused]
    · rw [hu, andThen_next]
      rw [ser_length] at hu2 hle
      have hn' : u.nfr = s.nfr - 1 := by rw [hu1]
      exact ih u (by rw [hn', hsub]; omega) (by rw [hu2]; exact hle) (by rw [hu2]; simp; omega)

/-- Taking a beat neither reads nor changes the rest of the channel. -/
theorem takeBeat_fld (w : FldBeat) (s : State) (x : List FldBeat) :
    takeBeat w { s with fld := x } = andThen (takeBeat w s) fun t => .next { t with fld := x } := by
  unfold takeBeat
  cases decodeFld w with
  | error e => rfl
  | ok f =>
    dsimp only
    rw [runField_eq_stage, runField_eq_stage]
    unfold stage
    dsimp only
    split <;> rfl

/-- Field intake looks at the beats it is given, not at the channel. -/
theorem intake_fld (ws : List FldBeat) (s : State) (x : List FldBeat) :
    intake ws { s with fld := x } = intake ws s := by
  induction ws generalizing s with
  | nil => rfl
  | cons w ws ih =>
    simp only [intake]
    split
    · rfl
    · rw [takeBeat_fld, andThen_assoc]
      congr 1
      funext t
      rw [andThen_next]
      exact ih t

/-- With no beat left to take, intake is over. -/
theorem intake_done (ws : List FldBeat) (s : State) (h : s.nfr = 0) : intake ws s = .next { s with fld := ws } := by
  cases ws <;> simp [intake, h]

/-! ## BUILD, case by case -/

theorem determineLength_next {s : State} (h : s.plen.toNat ≤ 65535) :
    determineLength s = .next { s with len := lengthField s.poll s.plen.toNat } := by
  simp [determineLength, Nat.not_lt.2 h]

/-- The capacity check fails: one error response. -/
theorem finishBuild_too_small {s : State} (h : s.plen.toNat ≤ 65535)
    (hc : s.cap.toNat < 8 + (lengthField s.poll s.plen.toNat).toNat) :
    finishBuild s = .next (raiseError .bufferTooSmall { s with len := lengthField s.poll s.plen.toNat }) := by
  rw [finishBuild, determineLength_next h, andThen_next]
  exact if_pos (bufferTooSmall_eq_true.2 hc)

/-- The packet is written: where the bound buffer holds it. -/
theorem writePacket_inside (s : State) (h : 8 + s.len.toNat ≤ s.dst.size) :
    writePacket s = .next { s with
      ckA := (fletcher8 (packetBody s.cls s.idb s.len (pbufBytes s.len.toNat s))).1
      ckB := (fletcher8 (packetBody s.cls s.idb s.len (pbufBytes s.len.toNat s))).2
      mem := storeBytes s.mem s.dst.base (packet s.cls s.idb s.len (pbufBytes s.len.toNat s))
      off := packetCount s.len, ph := .idle, response := none
      rsp := s.rsp ++ [Rsp.beat ⟨.ok, (fletcher8 (packetBody s.cls s.idb s.len (pbufBytes s.len.toNat s))).1,
        (fletcher8 (packetBody s.cls s.idb s.len (pbufBytes s.len.toNat s))).2, packetCount s.len⟩] } := by
  unfold writePacket
  simp only [absorbAll_clear]
  rw [writeDstBytes_inside _ _ _ (by simp; omega), andThen_next]
  rfl

theorem writePacket_outside (s : State) (h : s.dst.size < 8 + s.len.toNat) :
    writePacket s = .refused .dstOverrun := by
  unfold writePacket
  simp only [absorbAll_clear]
  rw [writeDstBytes_outside _ _ _ (by simp; omega) (Nat.zero_le _), andThen_refused]

/-- The state field intake leaves a `BUILD` in: all beats of `F` taken, `PBUF` holding `pb`. -/
def stagedBuild (s : State) (cap : Word) (cls id : Byte) (poll : Bool) (F : List Field) (rest : List FldBeat)
    (pb : List Byte) : State :=
  { latchBuild cap 0 cls id poll s with plen := BitVec.ofNat 17 (payloadSize F), pbuf := pb, fld := rest }

/-- Field intake of a `BUILD` whose beats are all there stages `ser(F)` (R86). -/
theorem build_intake (s : State) (cap nf : Word) (cls id : Byte) (poll : Bool) (F : List Field) (rest : List FldBeat)
    (hf : s.fld = F.map Field.beat ++ rest) (hn : F.length = nf.toNat) (hp : payloadSize F ≤ 65535) :
    ∃ pb, intake s.fld (latchBuild cap nf cls id poll s) = .next (stagedBuild s cap cls id poll F rest pb) ∧
      pbufBytes (payloadSize F) (stagedBuild s cap cls id poll F rest pb) = serAll F := by
  obtain ⟨t, ht, ht1, ht2, ht3, ht4⟩ :=
    intake_fields F rest (latchBuild cap nf cls id poll s) (by simp [hn]) (by simpa using hp)
  have hz : t.nfr = 0 := BitVec.eq_of_toNat_eq (by rw [ht2]; simp [hn])
  have hpl : t.plen.toNat = payloadSize F := by rw [ht3]; simp
  have hpl' : t.plen = BitVec.ofNat 17 (payloadSize F) := by
    apply BitVec.eq_of_toNat_eq; rw [hpl]; simp; omega
  have he : t.epoch = s.epoch := by rw [ht1]; rfl
  have hd : t.seed = s.seed := by rw [ht1]; rfl
  refine ⟨t.pbuf, ?_, ?_⟩
  · rw [hf, ht, intake_done _ _ hz, ht1, hz, hpl']
    rfl
  · rw [hpl] at ht4
    exact (pbufBytes_congr (s := stagedBuild s cap cls id poll F rest t.pbuf) (t := t) rfl he.symm hd.symm _).trans ht4

/-- `BUILD` whose beats are all there is intake and then the rest. -/
theorem execBuild_supplied {s u : State} {cap nf : Word} {cls id : Byte} {poll : Bool}
    (h : intake s.fld (latchBuild cap nf cls id poll s) = .next u) (hz : u.nfr = 0) :
    execBuild cap nf cls id poll s = finishBuild u := by
  simp [execBuild, h, hz]

/-! ## What a packet's bytes are -/

/-- The payload bytes a `BUILD` writes: none for a poll request (R92). -/
def writtenPayload (poll : Bool) (F : List Field) : List Byte := if poll then [] else serAll F

@[simp] theorem writtenPayload_length (poll : Bool) (F : List Field) :
    (writtenPayload poll F).length = if poll then 0 else payloadSize F := by cases poll <;> simp [writtenPayload]

/-- The checksum pair of the packet of a `BUILD` (R93). -/
def packetSum (cls id : Byte) (poll : Bool) (F : List Field) : Byte × Byte :=
  fletcher8 (packetBody cls id (lengthField poll (payloadSize F)) (writtenPayload poll F))

theorem packetOf_eq (cls id : Byte) (poll : Bool) (F : List Field) :
    packetOf cls id poll F = [Config.sync1, Config.sync2] ++
      packetBody cls id (lengthField poll (payloadSize F)) (writtenPayload poll F) ++
      [(packetSum cls id poll F).1, (packetSum cls id poll F).2] := rfl

theorem packetSize_eq (poll : Bool) (F : List Field) :
    packetSize poll F = 8 + if poll then 0 else payloadSize F := rfl

theorem packetSize_eq_length {poll : Bool} {F : List Field} (h : payloadSize F ≤ 65535) :
    packetSize poll F = 8 + (lengthField poll (payloadSize F)).toNat := by rw [lengthField_toNat h]; rfl

@[simp] theorem packetOf_length (cls id : Byte) (poll : Bool) (F : List Field) :
    (packetOf cls id poll F).length = packetSize poll F := by
  rw [packetOf_eq, packetSize_eq]; simp; omega

/-- The last two bytes of a packet are its checksum (R94). -/
theorem packetOf_sum (cls id : Byte) (poll : Bool) (F : List Field) :
    (packetOf cls id poll F).getD (packetSize poll F - 2) 0 = (packetSum cls id poll F).1 ∧
    (packetOf cls id poll F).getD (packetSize poll F - 1) 0 = (packetSum cls id poll F).2 := by
  rw [packetOf_eq, packetSize_eq]
  generalize hb : [Config.sync1, Config.sync2] ++
    packetBody cls id (lengthField poll (payloadSize F)) (writtenPayload poll F) = body
  have hl : body.length = 6 + if poll then 0 else payloadSize F := by rw [← hb]; simp; omega
  constructor
  · rw [List.getD, List.getElem?_append_right (by omega)]
    rw [show 8 + (if poll then 0 else payloadSize F) - 2 - body.length = 0 by omega]
    rfl
  · rw [List.getD, List.getElem?_append_right (by omega)]
    rw [show 8 + (if poll then 0 else payloadSize F) - 1 - body.length = 1 by omega]
    rfl

/-- A byte of the packet between the sync bytes and the checksum is a byte of the body. -/
theorem packetOf_body {cls id : Byte} {poll : Bool} {F : List Field} {k : Nat}
    (h : k < 4 + if poll then 0 else payloadSize F) :
    (packetOf cls id poll F).getD (2 + k) 0 =
      (packetBody cls id (lengthField poll (payloadSize F)) (writtenPayload poll F)).getD k 0 := by
  rw [packetOf_eq]
  generalize hb : packetBody cls id (lengthField poll (payloadSize F)) (writtenPayload poll F) = body
  have hl : body.length = 4 + if poll then 0 else payloadSize F := by rw [← hb]; simp
  rw [List.getD, List.getElem?_append_left (by simp; omega), List.getElem?_append_right (by simp)]
  simp [List.getD]

/-! ## The outcomes of a BUILD whose beats are all there -/

/-- The packet is written. -/
theorem execBuild_ok (s : State) (cap nf : Word) (cls id : Byte) (poll : Bool) (F : List Field) (rest : List FldBeat)
    (hf : s.fld = F.map Field.beat ++ rest) (hn : F.length = nf.toNat) (hp : payloadSize F ≤ 65535)
    (hc : packetSize poll F ≤ cap.toNat) (hd : packetSize poll F ≤ s.dst.size) :
    ∃ pb, execBuild cap nf cls id poll s = .next { s with
      op := .build, cls := cls, idb := id, poll := poll, cap := cap, nfr := 0, fld := rest
      plen := BitVec.ofNat 17 (payloadSize F), len := lengthField poll (payloadSize F)
      off := BitVec.ofNat 32 (packetSize poll F), ph := .idle, response := none, pbuf := pb
      ckA := (packetSum cls id poll F).1, ckB := (packetSum cls id poll F).2
      mem := storeBytes s.mem s.dst.base (packetOf cls id poll F)
      rsp := s.rsp ++ [Rsp.beat ⟨.ok, (packetSum cls id poll F).1, (packetSum cls id poll F).2,
        BitVec.ofNat 32 (packetSize poll F)⟩] } := by
  obtain ⟨pb, hu, hpb⟩ := build_intake s cap nf cls id poll F rest hf hn hp
  have hL := lengthField_toNat (poll := poll) hp
  have hsz := packetSize_eq_length (poll := poll) hp
  have hpl : (stagedBuild s cap cls id poll F rest pb).plen.toNat = payloadSize F := by
    simp [stagedBuild]; omega
  have hb : pbufBytes (lengthField poll (payloadSize F)).toNat (stagedBuild s cap cls id poll F rest pb) =
      writtenPayload poll F := by
    rw [hL]
    cases poll
    · exact hpb
    · rfl
  refine ⟨pb, ?_⟩
  rw [execBuild_supplied hu rfl, finishBuild, determineLength_next (by omega), andThen_next, hpl]
  generalize hu' : ({ stagedBuild s cap cls id poll F rest pb with len := lengthField (stagedBuild s cap cls id poll F rest pb).poll (payloadSize F) } : State) = u
  have hulen : u.len = lengthField poll (payloadSize F) := by rw [← hu']; rfl
  have hub : pbufBytes u.len.toNat u = writtenPayload poll F := by rw [hulen, ← hu']; exact hb
  have hucap : u.cap = cap := by rw [← hu']; rfl
  have hudst : u.dst = s.dst := by rw [← hu']; rfl
  rw [if_neg (by rw [Bool.not_eq_true, bufferTooSmall_eq_false, hulen, hucap]; omega),
    writePacket_inside u (by rw [hudst, hulen]; omega), hub, hulen,
    show packetCount (lengthField poll (payloadSize F)) = BitVec.ofNat 32 (packetSize poll F) by rw [hsz]; rfl]
  subst hu'
  rfl

/-- The packet does not fit the capacity: one error response. -/
theorem execBuild_too_small (s : State) (cap nf : Word) (cls id : Byte) (poll : Bool) (F : List Field)
    (rest : List FldBeat) (hf : s.fld = F.map Field.beat ++ rest) (hn : F.length = nf.toNat)
    (hp : payloadSize F ≤ 65535) (hc : cap.toNat < packetSize poll F) :
    ∃ pb, execBuild cap nf cls id poll s = .next { s with
      op := .build, cls := cls, idb := id, poll := poll, cap := cap, nfr := 0, fld := rest
      plen := BitVec.ofNat 17 (payloadSize F), len := lengthField poll (payloadSize F)
      ph := .idle, response := none, pbuf := pb, rsp := s.rsp ++ [(errRsp .bufferTooSmall).beat] } := by
  obtain ⟨pb, hu, -⟩ := build_intake s cap nf cls id poll F rest hf hn hp
  have hsz := packetSize_eq_length (poll := poll) hp
  have hpl : (stagedBuild s cap cls id poll F rest pb).plen.toNat = payloadSize F := by
    simp [stagedBuild]; omega
  refine ⟨pb, ?_⟩
  rw [execBuild_supplied hu rfl, finishBuild_too_small (by omega) (by rw [hpl]; exact hsz ▸ hc), hpl]
  rfl

/-- The packet passes the capacity check and does not fit the buffer really bound. -/
theorem execBuild_overrun (s : State) (cap nf : Word) (cls id : Byte) (poll : Bool) (F : List Field)
    (rest : List FldBeat) (hf : s.fld = F.map Field.beat ++ rest) (hn : F.length = nf.toNat)
    (hp : payloadSize F ≤ 65535) (hc : packetSize poll F ≤ cap.toNat) (hd : s.dst.size < packetSize poll F) :
    execBuild cap nf cls id poll s = .refused .dstOverrun := by
  obtain ⟨pb, hu, -⟩ := build_intake s cap nf cls id poll F rest hf hn hp
  have hsz := packetSize_eq_length (poll := poll) hp
  have hpl : (stagedBuild s cap cls id poll F rest pb).plen.toNat = payloadSize F := by
    simp [stagedBuild]; omega
  rw [execBuild_supplied hu rfl, finishBuild, determineLength_next (by omega), andThen_next, hpl]
  generalize hu' : ({ stagedBuild s cap cls id poll F rest pb with len := lengthField (stagedBuild s cap cls id poll F rest pb).poll (payloadSize F) } : State) = u
  have hulen : u.len = lengthField poll (payloadSize F) := by rw [← hu']; rfl
  have hucap : u.cap = cap := by rw [← hu']; rfl
  have hudst : u.dst = s.dst := by rw [← hu']; rfl
  rw [if_neg (by rw [Bool.not_eq_true, bufferTooSmall_eq_false, hulen, hucap]; omega),
    writePacket_outside u (by rw [hudst, hulen]; omega)]

end Sys2Proof.Machine
end

