-- ==== Sys2Proof/Laws/PerInstr.lean ====
section
/-! SUPPORT. For each instruction: its encoding selects the row of the opcode table that is its own. -/

namespace Sys2Proof.Laws.RowMatch

/-- The encoding of `i` meets the mask and match of `i`'s row of spec/opcode_table.json (R69). -/
def Statement (i : Instr) : Prop := rowSelects i.row.1 i.row.2 (encode i) = true

theorem and_cmdMask (w : CmdBeat) : w.toNat &&& 0x3 = (cmdOp w).toNat := by
  rw [cmdOp_toNat]
  exact Nat.and_two_pow_sub_one_eq_mod w.toNat 2

theorem and_fldMask (w : FldBeat) : w.toNat &&& 0xF = (fldKind w).toNat := by
  rw [fldKind_toNat]
  exact Nat.and_two_pow_sub_one_eq_mod w.toNat 4

theorem cksum (length blen : Word) : Statement (.cksum length blen) := by
  simp [Statement, rowSelects, Instr.row, encode, and_cmdMask]

theorem build (cap nf : Word) (cls id : Byte) (poll : Bool) : Statement (.build cap nf cls id poll) := by
  simp [Statement, rowSelects, Instr.row, encode, and_cmdMask]

theorem accClr : Statement .accClr := rfl

theorem accAbs (d : Byte) : Statement (.accAbs d) := by
  unfold Statement
  revert d
  decide

theorem accHold : Statement .accHold := rfl

theorem fldU8 (v : BitVec 8) : Statement (.fldU8 v) := by
  simp [Statement, rowSelects, Instr.row, encode, and_fldMask]

theorem fldI8 (v : BitVec 8) : Statement (.fldI8 v) := by
  simp [Statement, rowSelects, Instr.row, encode, and_fldMask]

theorem fldRaw (v : BitVec 8) : Statement (.fldRaw v) := by
  simp [Statement, rowSelects, Instr.row, encode, and_fldMask]

theorem fldU16 (v : BitVec 16) : Statement (.fldU16 v) := by
  simp [Statement, rowSelects, Instr.row, encode, and_fldMask]

theorem fldI16 (v : BitVec 16) : Statement (.fldI16 v) := by
  simp [Statement, rowSelects, Instr.row, encode, and_fldMask]

theorem fldU32 (v : BitVec 32) : Statement (.fldU32 v) := by
  simp [Statement, rowSelects, Instr.row, encode, and_fldMask]

theorem fldI32 (v : BitVec 32) : Statement (.fldI32 v) := by
  simp [Statement, rowSelects, Instr.row, encode, and_fldMask]

theorem fldF32 (v : BitVec 32) : Statement (.fldF32 v) := by
  simp [Statement, rowSelects, Instr.row, encode, and_fldMask]

theorem fldF64 (v : BitVec 64) : Statement (.fldF64 v) := by
  simp [Statement, rowSelects, Instr.row, encode, and_fldMask]

end Sys2Proof.Laws.RowMatch
end

