-- ==== Sys2Proof/Laws/Step.lean ====
section
/-! SUPPORT. Everything each operation can do where it answers a next state, and that only the sequencer
faults: the lemmas that statements over every step rest on. -/

namespace Sys2Proof.Machine

/-! ## Words the sequencer drives -/

@[simp] theorem driveAcc_clrWord (s : State) : driveAcc accClrWord s = clearAcc s := by
  simp [driveAcc, accClrWord]

@[simp] theorem driveAcc_absWord (d : Byte) (s : State) : driveAcc (accAbsWord d) s = absorb d s := by
  simp [driveAcc, accAbsWord]

@[simp] theorem driveAcc_holdWord (s : State) : driveAcc accHoldWord s = s := by
  simp [driveAcc, accHoldWord]

/-- A control word changes the two sums and nothing else. -/
theorem driveAcc_eq (w : AccWord) (s : State) :
    driveAcc w s = { s with ckA := (driveAcc w s).ckA, ckB := (driveAcc w s).ckB } := by
  unfold driveAcc
  cases decodeAcc w <;> rfl

/-- `exec` of a micro-operation is what the accumulator does with its word. -/
theorem exec_ofAccOp (w : AccWord) (s : State) :
    exec (Instr.ofAccOp (decodeAcc w)) s = .next (driveAcc w s) := by
  unfold driveAcc
  cases decodeAcc w <;> rfl

/-! ## Inversions -/

/-- The staging buffer is in bounds: the part of the invariant that field intake touches. -/
def Staged (s : State) : Prop :=
  s.plen.toNat ≤ Config.pMax ∧ s.plen.toNat ≤ s.pbuf.length ∧ s.pbuf.length ≤ Config.pMax

/-- Everything a store to `DST` can do. -/
theorem writeDst_inv {off : Nat} {b : Byte} {s t : State} (h : writeDst off b s = .next t) :
    off < s.dst.size ∧ t = { s with mem := s.mem.write (s.dst.base + off) b } := by
  unfold writeDst at h
  split at h
  · next hlt => cases h; exact ⟨hlt, rfl⟩
  · cases h

/-- Everything staging can do, in the terms of the invariant. -/
theorem stage_inv {bs : List Byte} {s t : State} (h : stage bs s = .next t) :
    t = { s with pbuf := t.pbuf, plen := t.plen } ∧ t.plen.toNat = s.plen.toNat + bs.length ∧
      (Staged s → Staged t) := by
  obtain ⟨-, e⟩ | ⟨hle, u, hu, h1, h2, h3⟩ := stage_cases bs s
  · rw [e] at h; cases h
  · rw [hu] at h
    cases h
    refine ⟨h1, h2, fun ⟨_, _, hc⟩ => ⟨by rw [h2]; exact hle, ?_, ?_⟩⟩
    · simp [h2, h3]
    · simp only [Config.pMax] at hc ⊢
      simp [h3]
      omega

/-- Everything taking one beat can do. -/
theorem takeBeat_inv {w : FldBeat} {s t : State} (h : takeBeat w s = .next t) :
    t = { s with nfr := s.nfr - 1, pbuf := t.pbuf, plen := t.plen } ∧ (Staged s → Staged t) := by
  unfold takeBeat at h
  split at h
  · rw [runField_eq_stage] at h
    obtain ⟨h1, -, h3⟩ := stage_inv h
    exact ⟨h1, h3⟩
  · cases h

/-- Everything field intake can do: it ends with no beat left to take, or with none there. -/
theorem intake_inv {ws : List FldBeat} {s t : State} (h : intake ws s = .next t) :
    t = { s with nfr := t.nfr, pbuf := t.pbuf, plen := t.plen, fld := t.fld } ∧ t.fld <:+ ws ∧
      (t.nfr = 0 ∨ t.fld = []) ∧ (Staged s → Staged t) := by
  induction ws generalizing s with
  | nil => cases h; exact ⟨rfl, List.suffix_rfl, .inr rfl, id⟩
  | cons w ws ih =>
    unfold intake at h
    split at h
    · next hz => cases h; exact ⟨rfl, List.suffix_rfl, .inl hz, id⟩
    · obtain ⟨u, hu, h'⟩ := andThen_eq_next.1 h
      obtain ⟨hu1, hu2⟩ := takeBeat_inv hu
      obtain ⟨h1, h2, h3, h4⟩ := ih h'
      exact ⟨by rw [h1, hu1], h2.trans (List.suffix_cons w ws), h3, fun hs => h4 (hu2 hs)⟩

/-- Intake that waits goes on with the beats that come later. -/
theorem intake_append {ws : List FldBeat} {s t : State} (h : intake ws s = .next t) (hz : t.nfr ≠ 0)
    (late : List FldBeat) : intake (ws ++ late) s = intake late t := by
  induction ws generalizing s with
  | nil =>
    cases h
    exact (intake_fld late s []).symm
  | cons w ws ih =>
    rw [intake] at h
    rw [List.cons_append, intake]
    split at h
    · next h0 =>
      cases h
      exact absurd h0 hz
    · next h0 =>
      obtain ⟨u, hu, h⟩ := andThen_eq_next.1 h
      rw [if_neg h0, hu, andThen_next, ih h]

/-- Everything length determination can do (R87). -/
theorem determineLength_inv {s t : State} (h : determineLength s = .next t) :
    s.plen.toNat ≤ Config.pMax ∧ t = { s with len := lengthField s.poll s.plen.toNat } := by
  unfold determineLength at h
  split at h
  · cases h
  · next hle => cases h; exact ⟨Nat.not_lt.1 hle, rfl⟩

/-- Everything the writing of a packet can do: it stores the packet's bytes inside the bound buffer. -/
theorem writePacket_inv {s t : State} (h : writePacket s = .next t) :
    8 + s.len.toNat ≤ s.dst.size ∧ t = { s with
      ckA := t.ckA, ckB := t.ckB, off := packetCount s.len, ph := .idle, response := none
      mem := storeBytes s.mem s.dst.base (packet s.cls s.idb s.len (pbufBytes s.len.toNat s))
      rsp := s.rsp ++ [(okRsp (packetCount s.len) t).beat] } := by
  by_cases hd : 8 + s.len.toNat ≤ s.dst.size
  · rw [writePacket_inside s hd] at h
    cases h
    exact ⟨hd, rfl⟩
  · rw [writePacket_outside s (by omega)] at h
    cases h

/-- Everything a `CKSUM` can do. -/
theorem execCksum_inv {length blen : Word} {s t : State} (h : execCksum length blen s = .next t) :
    ∃ r, t = { s with
      ckA := t.ckA, ckB := t.ckB, op := .cksum, cnt := length, cap := blen, off := t.off, ph := .idle
      response := none, rsp := s.rsp ++ [r] } := by
  by_cases hb : blen.toNat < length.toNat
  · rw [execCksum_invalid s _ _ hb] at h
    cases h
    exact ⟨_, rfl⟩
  · by_cases hs : length.toNat ≤ s.src.size
    · rw [execCksum_ok s _ _ (by omega) hs] at h
      cases h
      exact ⟨_, rfl⟩
    · rw [execCksum_overrun s _ _ (by omega) (by omega)] at h
      cases h

/-- Everything a `BUILD` can do where it answers a next state: it waits for beats in `LOAD`, or it ends
in `IDLE` with one response more, having stored a run of bytes at `DST` no longer than `cap` and the
buffer, or none. -/
theorem execBuild_inv {cap nf : Word} {cls id : Byte} {poll : Bool} {s t : State}
    (h : execBuild cap nf cls id poll s = .next t) :
    t.cap = cap ∧ t.op = .build ∧ t.cmd = s.cmd ∧ t.acc = s.acc ∧ t.src = s.src ∧ t.dst = s.dst ∧
      (s.pbuf.length ≤ Config.pMax → Staged t) ∧
      ((t.ph = .load ∧ t.nfr ≠ 0 ∧ t.fld = [] ∧ t.rsp = s.rsp ∧ t.mem = s.mem ∧ t.response = s.response) ∨
       (t.ph = .idle ∧ t.response = none ∧ ∃ r bs, t.rsp = s.rsp ++ [r] ∧
        t.mem = storeBytes s.mem s.dst.base bs ∧ bs.length ≤ min s.dst.size cap.toNat)) := by
  obtain ⟨u, hu, h⟩ := andThen_eq_next.1 h
  obtain ⟨h1, -, h3, h4⟩ := intake_inv hu
  have hst : s.pbuf.length ≤ Config.pMax → Staged u := fun hp => h4 ⟨by simp, by simp, by simpa using hp⟩
  split at h
  · obtain ⟨v, hv, h⟩ := andThen_eq_next.1 h
    obtain ⟨-, hv1⟩ := determineLength_inv hv
    have hst' : s.pbuf.length ≤ Config.pMax → Staged v := fun hp => by rw [hv1]; exact hst hp
    split at h
    · cases h
      refine ⟨?_, ?_, ?_, ?_, ?_, ?_, hst', .inr ⟨rfl, rfl, (errRsp .bufferTooSmall).beat, [], ?_, ?_, Nat.zero_le _⟩⟩ <;>
        (rw [hv1, h1]; rfl)
    · next hc =>
      obtain ⟨hd, ht⟩ := writePacket_inv h
      have hcap : v.cap = cap := by rw [hv1, h1]; rfl
      have hdst : v.dst = s.dst := by rw [hv1, h1]; rfl
      rw [Bool.not_eq_true, bufferTooSmall_eq_false, hcap] at hc
      rw [hdst] at hd
      obtain ⟨hcmd, hacc, hsrc, hrsp, hmem, hop⟩ : v.cmd = s.cmd ∧ v.acc = s.acc ∧ v.src = s.src ∧
          v.rsp = s.rsp ∧ v.mem = s.mem ∧ v.op = .build := by
        rw [hv1, h1]
        exact ⟨rfl, rfl, rfl, rfl, rfl, rfl⟩
      have hts : Staged v → Staged t := fun hp => by rw [ht]; exact hp
      rw [hmem, hrsp, hdst] at ht
      refine ⟨?_, ?_, ?_, ?_, ?_, ?_, fun hp => hts (hst' hp), .inr ⟨?_, ?_, (okRsp (packetCount v.len) t).beat,
        packet v.cls v.idb v.len (pbufBytes v.len.toNat v), congrArg State.rsp ht, congrArg State.mem ht, ?_⟩⟩
      case refine_9 => simp; omega
      all_goals rw [ht]
      all_goals assumption
  · next hz =>
    cases h
    refine ⟨?_, ?_, ?_, ?_, ?_, ?_, hst, .inl ⟨?_, hz, h3.resolve_left hz, ?_, ?_, ?_⟩⟩ <;> (rw [h1]; rfl)

/-! ## No instruction faults -/

theorem writeDstBytes_no_fault (off : Nat) (bs : List Byte) (s : State) (r : Fault) :
    writeDstBytes off bs s ≠ .fault r := by
  induction bs generalizing off s with
  | nil => rintro ⟨⟩
  | cons b bs ih =>
    intro h
    obtain h | ⟨u, -, h⟩ := andThen_eq_fault.1 h
    · unfold writeDst at h; split at h <;> cases h
    · exact ih _ _ h

theorem stage_no_fault (bs : List Byte) (s : State) (r : Fault) : stage bs s ≠ .fault r := by
  intro h; unfold stage at h; split at h <;> cases h

theorem takeBeat_no_fault (w : FldBeat) (s : State) (r : Fault) : takeBeat w s ≠ .fault r := by
  intro h
  unfold takeBeat at h
  split at h
  · rw [runField_eq_stage] at h; exact stage_no_fault _ _ _ h
  · cases h

theorem intake_no_fault (ws : List FldBeat) (s : State) (r : Fault) : intake ws s ≠ .fault r := by
  induction ws generalizing s with
  | nil => rintro ⟨⟩
  | cons w ws ih =>
    intro h
    unfold intake at h
    split at h
    · cases h
    · obtain h | ⟨u, -, h⟩ := andThen_eq_fault.1 h
      · exact takeBeat_no_fault _ _ _ h
      · exact ih _ h

theorem determineLength_no_fault (s : State) (r : Fault) : determineLength s ≠ .fault r := by
  intro h; unfold determineLength at h; split at h <;> cases h

/-- No instruction faults: only the sequencer does, off its walk. -/
theorem exec_no_fault (i : Instr) (s : State) (r : Fault) : exec i s ≠ .fault r := by
  cases i with
  | cksum length blen =>
    intro h
    change execCksum length blen s = _ at h
    by_cases hb : blen.toNat < length.toNat
    · rw [execCksum_invalid s _ _ hb] at h; cases h
    · by_cases hs : length.toNat ≤ s.src.size
      · rw [execCksum_ok s _ _ (by omega) hs] at h; cases h
      · rw [execCksum_overrun s _ _ (by omega) (by omega)] at h; cases h
  | build cap nf cls id poll =>
    intro h
    obtain h | ⟨u, -, h⟩ := andThen_eq_fault.1 h
    · exact intake_no_fault _ _ _ h
    · split at h
      · obtain h | ⟨v, -, h⟩ := andThen_eq_fault.1 h
        · exact determineLength_no_fault _ _ h
        · split at h
          · cases h
          · obtain h | ⟨x, -, h⟩ := andThen_eq_fault.1 h
            · exact writeDstBytes_no_fault _ _ _ _ h
            · cases h
      · cases h
  | accClr | accAbs | accHold => rintro ⟨⟩
  | fldU8 | fldI8 | fldRaw | fldU16 | fldI16 | fldU32 | fldI32 | fldF32 | fldF64 => exact stage_no_fault _ _ _

/-! ## What a step is -/

/-- Everything a step can be: an `ACC` word, a wait, a command, a field, a refused beat, or a step of the
sequencer inside an operation. -/
theorem step_cases (s : State) :
    (∃ w, s.acc = some w ∧ step s = .next (driveAcc w { s with acc := none })) ∨
    (s.acc = none ∧ step s = .next s ∧ ((s.ph = .idle ∧ s.cmd = []) ∨ (s.ph = .load ∧ s.nfr ≠ 0 ∧ s.fld = []))) ∨
    (s.acc = none ∧ s.ph = .idle ∧ ∃ w ws c, s.cmd = w :: ws ∧ decodeCmd w = .ok c ∧
      step s = exec (Instr.ofCommand c) { s with cmd := ws }) ∨
    (s.acc = none ∧ s.ph = .load ∧ s.nfr ≠ 0 ∧ ∃ w ws f, s.fld = w :: ws ∧ decodeFld w = .ok f ∧
      step s = stage (ser f) { s with fld := ws, nfr := s.nfr - 1 }) ∨
    (∃ e, step s = .refused (refusalOf e)) ∨
    (s.acc = none ∧ s.ph ≠ .idle ∧ (s.ph = .load → s.nfr = 0) ∧ step s = seqStep s) := by
  cases ha : s.acc with
  | some w =>
    refine .inl ⟨w, rfl, ?_⟩
    simp [step, fetch, ha, exec_ofAccOp]
  | none =>
    cases hp : s.ph with
    | idle =>
      cases hc : s.cmd with
      | nil => exact .inr (.inl ⟨rfl, by simp [step, fetch, ha, hp, fetchCommand, hc], .inl ⟨rfl, rfl⟩⟩)
      | cons w ws =>
        cases hd : decodeCmd w with
        | ok c =>
          exact .inr (.inr (.inl ⟨rfl, rfl, w, ws, c, rfl, hd, by simp [step, fetch, ha, hp, fetchCommand, hc, hd]⟩))
        | error e =>
          exact .inr (.inr (.inr (.inr (.inl ⟨e, by simp [step, fetch, ha, hp, fetchCommand, hc, hd]⟩))))
    | load =>
      by_cases hz : s.nfr = 0
      · exact .inr (.inr (.inr (.inr (.inr ⟨rfl, by simp, fun _ => hz, by simp [step, fetch, ha, hp, fetchField, hz]⟩))))
      · cases hf : s.fld with
        | nil => exact .inr (.inl ⟨rfl, by simp only [step, fetch, ha, hp, fetchField, if_neg hz, hf], .inr ⟨rfl, hz, rfl⟩⟩)
        | cons w ws =>
          cases hd : decodeFld w with
          | ok f =>
            exact .inr (.inr (.inr (.inl ⟨rfl, rfl, hz, w, ws, f, rfl, hd, by
              simp only [step, fetch, ha, hp, fetchField, if_neg hz, hf, hd, exec_ofField]⟩)))
          | error e =>
            exact .inr (.inr (.inr (.inr (.inl ⟨e, by simp only [step, fetch, ha, hp, fetchField, if_neg hz, hf, hd]⟩))))
    | check | sync1 | sync2 | cls | idb | lenLo | lenHi | payload | cka | ckb | range | resp =>
      exact .inr (.inr (.inr (.inr (.inr ⟨rfl, by simp, by simp, by simp [step, fetch, ha, hp]⟩))))

end Sys2Proof.Machine
end

