-- ==== Sys2Proof/Laws/Sequencer.lean ====
section
/-! SUPPORT. The reference sequencer, phase by phase: everything each phase's step can do. -/

namespace Sys2Proof.Machine

/-- Everything a line of the walk that writes one byte can do. -/
theorem seqWrite_inv {off : Nat} {b : Byte} {w : AccWord} {off' : Word} {ph : Phase} {s t : State}
    (h : seqWrite off b w off' ph s = .next t) :
    off < s.dst.size ∧ t = { s with
      ckA := t.ckA, ckB := t.ckB, mem := s.mem.write (s.dst.base + off) b, off := off', ph := ph } := by
  obtain ⟨u, hu, h⟩ := andThen_eq_next.1 h
  obtain ⟨h1, h2⟩ := writeDst_inv hu
  cases h
  refine ⟨h1, ?_⟩
  rw [driveAcc_eq, h2]

/-- `LOAD` with no beat left to take. -/
theorem seqLoad_done {s : State} (h : s.nfr = 0) :
    seqLoad s = andThen (determineLength s) fun t => .next { t with ph := .check } := if_pos h

/-- Everything `CHECK` can do. -/
theorem seqCheck_inv {s t : State} (h : seqCheck s = .next t) :
    (∃ st, st ≠ .ok ∧ t = { s with response := some (errRsp st), ph := .resp } ∧ s.op ≠ .none) ∨
    (s.op = .cksum ∧ invalidRange s.cnt s.cap = false ∧ t = { s with ckA := 0, ckB := 0, ph := .range }) ∨
    (s.op = .build ∧ bufferTooSmall s.cap s.len = false ∧ t = { s with off := 0, ph := .sync1 }) := by
  unfold seqCheck at h
  split at h
  · next ho =>
    split at h <;> cases h
    · exact .inl ⟨.invalidRange, by decide, rfl, by simp [ho]⟩
    · next hc => exact .inr (.inl ⟨ho, by simpa using hc, by simp⟩)
  · next ho =>
    split at h <;> cases h
    · exact .inl ⟨.bufferTooSmall, by decide, rfl, by simp [ho]⟩
    · next hc => exact .inr (.inr ⟨ho, by simpa using hc, rfl⟩)
  · cases h

/-- Everything `PAYLOAD` can do. -/
theorem seqPayload_inv {s t : State} (h : seqPayload s = .next t) :
    6 ≤ s.off.toNat ∧ s.off.toNat < s.dst.size ∧ t = { s with
      ckA := t.ckA, ckB := t.ckB
      mem := s.mem.write (s.dst.base + s.off.toNat) (pbufRead s (s.off.toNat - 6)), off := s.off + 1
      ph := if (s.off + 1).toNat = 6 + s.len.toNat then .cka else .payload } := by
  unfold seqPayload at h
  split at h
  · cases h
  · next h6 => exact ⟨by omega, seqWrite_inv h⟩

/-- Everything `RANGE` can do. -/
theorem seqRange_inv {s t : State} (h : seqRange s = .next t) :
    (s.off.toNat < s.cnt.toNat ∧ t = { s with ckA := t.ckA, ckB := t.ckB, off := s.off + 1 }) ∨
    (s.cnt.toNat ≤ s.off.toNat ∧ t = { s with response := some (okRsp s.cnt s), ph := .resp }) := by
  unfold seqRange at h
  split at h
  · next hl =>
    split at h <;> cases h
    exact .inl ⟨hl, by simp⟩
  · next hl => cases h; exact .inr ⟨by omega, rfl⟩

/-- Everything `CKB` can do. -/
theorem seqCkb_inv {s t : State} (h : seqCkb s = .next t) :
    7 + s.len.toNat < s.dst.size ∧ t = { s with
      mem := s.mem.write (s.dst.base + (7 + s.len.toNat)) s.ckB, off := packetCount s.len
      response := some (okRsp (packetCount s.len) s), ph := .resp } := by
  obtain ⟨u, hu, h⟩ := andThen_eq_next.1 h
  obtain ⟨v, hv, hu⟩ := andThen_eq_next.1 hu
  obtain ⟨h1, h2⟩ := writeDst_inv hv
  cases hu
  cases h
  refine ⟨h1, ?_⟩
  simp [h2, okRsp]

/-- Everything `RESP` can do. -/
theorem seqResp_inv {s t : State} (h : seqResp s = .next t) :
    ∃ r, s.response = some r ∧ t = sendRsp r s := by
  unfold seqResp at h
  split at h <;> cases h
  exact ⟨_, ‹_›, rfl⟩

/-! ## The walk that writes a packet -/

/-- The body of the packet a state past the capacity check is to write. -/
def bodyOf (u : State) : List Byte := packetBody u.cls u.idb u.len (pbufBytes u.len.toNat u)

/-- The packet that state is to write. -/
def pktOf (u : State) : List Byte := packet u.cls u.idb u.len (pbufBytes u.len.toNat u)

theorem pktOf_eq (u : State) : pktOf u = [Config.sync1, Config.sync2] ++ bodyOf u ++
    [(fletcher8 (bodyOf u)).1, (fletcher8 (bodyOf u)).2] := rfl

@[simp] theorem bodyOf_length (u : State) : (bodyOf u).length = 4 + u.len.toNat := by simp [bodyOf]

@[simp] theorem pktOf_length (u : State) : (pktOf u).length = 8 + u.len.toNat := by simp [pktOf]

/-- A byte of the body stands two offsets further on in the packet. -/
theorem pktOf_body (u : State) {k : Nat} (h : k < 4 + u.len.toNat) : (pktOf u).getD (k + 2) 0 = (bodyOf u).getD k 0 := by
  show (bodyOf u ++ _).getD k 0 = _
  simp only [List.getD]
  rw [List.getElem?_append_left (by simpa using h)]

/-- The last two bytes of the packet are the sums of its body. -/
theorem pktOf_sums (u : State) :
    (pktOf u).getD (6 + u.len.toNat) 0 = (fletcher8 (bodyOf u)).1 ∧
    (pktOf u).getD (7 + u.len.toNat) 0 = (fletcher8 (bodyOf u)).2 := by
  have hl : ([Config.sync1, Config.sync2] ++ bodyOf u).length = 6 + u.len.toNat := by simp; omega
  rw [pktOf_eq, ← hl, show 7 + u.len.toNat = ([Config.sync1, Config.sync2] ++ bodyOf u).length + 1 by omega]
  simp [List.getD]

/-- The phase that writes the byte at an offset of a packet with `n` payload bytes (R101). -/
def framePhase (n o : Nat) : Phase :=
  [Phase.sync1, .sync2, .cls, .idb, .lenLo, .lenHi].getD o
    (if o < 6 + n then .payload else if o = 6 + n then .cka else .ckb)

/-- Past the header the phase is decided by where the payload ends. -/
theorem framePhase_past {n o : Nat} (h : 6 ≤ o) :
    framePhase n o = if o < 6 + n then .payload else if o = 6 + n then .cka else .ckb :=
  List.getD_eq_default _ _ h

/-- The `ACC` word driven with that byte. -/
def frameWord (n o : Nat) (b : Byte) : AccWord :=
  if o = 1 then accClrWord else if 2 ≤ o ∧ o < 6 + n then accAbsWord b else accHoldWord

theorem frameWord_abs {n o : Nat} (b : Byte) (h : 2 ≤ o) (h' : o < 6 + n) : frameWord n o b = accAbsWord b := by
  simp [frameWord, h, h', show o ≠ 1 by omega]

theorem frameWord_hold {n o : Nat} (b : Byte) (h : 6 + n ≤ o) : frameWord n o b = accHoldWord := by
  simp [frameWord, show o ≠ 1 by omega, show ¬ o < 6 + n by omega]

/-- The sums before the byte at offset `o` is written: untouched until `SYNC2` clears them, then those of
the body's bytes so far. -/
def frameSums (u : State) (o : Nat) : Byte × Byte :=
  if o < 2 then (u.ckA, u.ckB) else fletcher8 ((bodyOf u).take (o - 2))

theorem frameSums_past (u : State) {o : Nat} (h : 6 + u.len.toNat ≤ o) : frameSums u o = fletcher8 (bodyOf u) := by
  rw [frameSums, if_neg (by omega), List.take_of_length_le (by rw [bodyOf_length]; omega)]

/-- The state of the walk of `u` before the byte at offset `o` is written: the bytes before it stand at
`DST`, and the accumulator holds what the bytes from offset 2 up to it sum to. -/
def frame (u : State) (o : Nat) : State :=
  { u with
    ckA := (frameSums u o).1, ckB := (frameSums u o).2
    mem := storeBytes u.mem u.dst.base ((pktOf u).take o), off := BitVec.ofNat 32 o, ph := framePhase u.len.toNat o }

theorem fletcher8_append_one (bs : List Byte) (d : Byte) :
    fletcher8 (bs ++ [d]) = ((fletcher8 bs).1 + d, (fletcher8 bs).2 + ((fletcher8 bs).1 + d)) := by
  simp [fletcher8_eq_from, fletcherFrom_append]

theorem take_succ_getD (bs : List Byte) (o : Nat) (h : o < bs.length) :
    bs.take (o + 1) = bs.take o ++ [bs.getD o 0] := by
  rw [List.take_add_one, List.getElem?_eq_getElem h]
  simp [List.getD, h]

/-- One more byte of the packet stored after those before it. -/
theorem storeBytes_frame (u : State) (o : Nat) (h : o < 8 + u.len.toNat) :
    (storeBytes u.mem u.dst.base ((pktOf u).take o)).write (u.dst.base + o) ((pktOf u).getD o 0) =
      storeBytes u.mem u.dst.base ((pktOf u).take (o + 1)) := by
  rw [take_succ_getD _ _ (by simpa using h), storeBytes_append]
  simp [storeBytes, Nat.min_eq_left (Nat.le_of_lt h)]

/-- The word driven with a byte takes the sums to those before the next one. -/
theorem driveAcc_frame (u : State) (o : Nat) (h : o < 7 + u.len.toNat) (m : Memory) :
    driveAcc (frameWord u.len.toNat o ((pktOf u).getD o 0)) { frame u o with mem := m } =
      { frame u o with mem := m, ckA := (frameSums u (o + 1)).1, ckB := (frameSums u (o + 1)).2 } := by
  match o with
  | 0 => exact driveAcc_holdWord _
  | 1 => exact driveAcc_clrWord _
  | k + 2 =>
    by_cases hk : k < 4 + u.len.toNat
    · have hs : frameSums u (k + 3) = fletcher8 ((bodyOf u).take k ++ [(bodyOf u).getD k 0]) := by
        rw [← take_succ_getD _ _ (by simpa using hk)]
        rfl
      rw [frameWord_abs _ (by omega) (by omega), driveAcc_absWord, hs, fletcher8_append_one, pktOf_body u hk]
      rfl
    · rw [frameWord_hold _ (by omega), driveAcc_holdWord, frameSums_past u (o := k + 2 + 1) (by omega),
        ← frameSums_past u (o := k + 2) (by omega)]
      rfl

/-- A line of the walk writes the packet's byte at its offset and leaves the walk one offset further on. -/
theorem seqWrite_frame (u : State) (o : Nat) (h : o < 7 + u.len.toNat) :
    seqWrite o ((pktOf u).getD o 0) (frameWord u.len.toNat o ((pktOf u).getD o 0)) (BitVec.ofNat 32 (o + 1))
        (framePhase u.len.toNat (o + 1)) (frame u o) =
      if o < u.dst.size then .next (frame u (o + 1)) else .refused .dstOverrun := by
  unfold seqWrite
  split
  · next hd =>
    rw [writeDst_inside (by exact hd), andThen_next, driveAcc_frame u o h]
    simp only [frame, storeBytes_frame u o (by omega)]
  · next hd => rw [writeDst_outside (by show u.dst.size ≤ o; omega), andThen_refused]

/-- In `PAYLOAD` the walk's byte is the staged one. -/
theorem pktOf_payload (u : State) {o : Nat} (h6 : 6 ≤ o) (h : o < 6 + u.len.toNat) :
    (pktOf u).getD o 0 = pbufRead (frame u o) (o - 6) := by
  obtain ⟨k, rfl⟩ : ∃ k, o = k + 6 := ⟨o - 6, by omega⟩
  rw [show k + 6 = k + 4 + 2 by omega, pktOf_body u (by omega)]
  simp [bodyOf, packetBody, leBytes, List.range_succ, List.getD, pbufBytes, pbufRead, frame, show k < u.len.toNat by omega]

/-- The sequencer's step along the walk. -/
theorem seqStep_frame (u : State) (o : Nat) (h : o < 7 + u.len.toNat) :
    seqStep (frame u o) = if o < u.dst.size then .next (frame u (o + 1)) else .refused .dstOverrun := by
  rw [← seqWrite_frame u o h]
  have hL := u.len.isLt
  have hp : (frame u o).ph = framePhase u.len.toNat o := rfl
  have ho : (frame u o).off.toNat = o := by simp [frame]; omega
  by_cases h0 : o < 6
  · match o, h0 with
    | 0, _ => rfl
    | 1, _ => rfl
    | 2, _ => rw [frameWord_abs _ (by decide) (by omega)]; rfl
    | 3, _ => rw [frameWord_abs _ (by decide) (by omega)]; rfl
    | 4, _ => rw [frameWord_abs _ (by decide) (by omega)]; rfl
    | 5, _ =>
      have e : framePhase u.len.toNat 6 = if u.len = 0 then .cka else .payload := by
        rw [framePhase_past (Nat.le_refl 6)]
        by_cases hz : u.len = 0
        · simp [hz]
        · have h1 : u.len.toNat ≠ 0 := fun e => hz (BitVec.eq_of_toNat_eq e)
          rw [if_neg hz, if_pos (by omega)]
      rw [frameWord_abs _ (by decide) (by omega), e]
      rfl
  · by_cases h1 : o < 6 + u.len.toNat
    · have hph : framePhase u.len.toNat o = .payload := by rw [framePhase_past (by omega), if_pos h1]
      have hs : (frame u o).off + 1 = BitVec.ofNat 32 (o + 1) := by
        apply BitVec.eq_of_toNat_eq
        rw [BitVec.toNat_add, ho]
        simp
      have hn : (BitVec.ofNat 32 (o + 1)).toNat = o + 1 := by simp; omega
      have hph' : framePhase u.len.toNat (o + 1) = if o + 1 = 6 + u.len.toNat then .cka else .payload := by
        rw [framePhase_past (by omega)]
        split_ifs <;> first | rfl | omega
      rw [frameWord_abs _ (by omega) h1, pktOf_payload u (by omega) h1, hph']
      simp only [seqStep, hp, hph, seqPayload, ho, hs, hn, if_neg h0]
      rfl
    · obtain rfl : o = 6 + u.len.toNat := by omega
      have hph : framePhase u.len.toNat (6 + u.len.toNat) = .cka := by simp [framePhase_past]
      have hph' : framePhase u.len.toNat (6 + u.len.toNat + 1) = .ckb := by
        rw [framePhase_past (by omega)]
        simp
      have hA : (frame u (6 + u.len.toNat)).ckA = (fletcher8 (bodyOf u)).1 := by
        simp only [frame, frameSums_past u (Nat.le_refl _)]
      rw [(pktOf_sums u).1, ← hA, frameWord_hold _ (Nat.le_refl _), hph']
      simp only [seqStep, hp, hph, Nat.add_right_comm 6 u.len.toNat 1]
      rfl

/-- The last byte of the walk, and the response. -/
theorem seqStep_frame_last (u : State) :
    seqStep (frame u (7 + u.len.toNat)) =
      if 7 + u.len.toNat < u.dst.size then .next { u with
        ckA := (fletcher8 (bodyOf u)).1, ckB := (fletcher8 (bodyOf u)).2
        mem := storeBytes u.mem u.dst.base (pktOf u), off := packetCount u.len, ph := .resp
        response := some ⟨.ok, (fletcher8 (bodyOf u)).1, (fletcher8 (bodyOf u)).2, packetCount u.len⟩ }
      else .refused .dstOverrun := by
  have hph : (frame u (7 + u.len.toNat)).ph = .ckb := by
    rw [show (frame u (7 + u.len.toNat)).ph = framePhase u.len.toNat (7 + u.len.toNat) from rfl, framePhase_past (by omega)]
    simp
  have hS : frameSums u (7 + u.len.toNat) = fletcher8 (bodyOf u) := frameSums_past u (by omega)
  have hm := storeBytes_frame u (7 + u.len.toNat) (by omega)
  rw [(pktOf_sums u).2, List.take_of_length_le (i := 7 + u.len.toNat + 1) (by rw [pktOf_length]; omega)] at hm
  simp only [seqStep, hph, seqCkb, seqWrite]
  split
  · next hd =>
    rw [writeDst_inside (by exact hd)]
    simp only [andThen_next, driveAcc_holdWord, frame, hS, hm, okRsp]
  · next hd =>
    rw [writeDst_outside (by show u.dst.size ≤ 7 + u.len.toNat; omega), andThen_refused, andThen_refused]

/-- The phase a packet is written from does not show in what is written. -/
theorem writePacket_ph (u : State) (p : Phase) : writePacket { u with ph := p } = writePacket u := by
  by_cases hd : 8 + u.len.toNat ≤ u.dst.size
  · rw [writePacket_inside u hd, writePacket_inside { u with ph := p } hd]
    rfl
  · have hd' : u.dst.size < 8 + u.len.toNat := Nat.lt_of_not_le hd
    rw [writePacket_outside u hd', writePacket_outside { u with ph := p } hd']

/-! ## Runs

The lemmas below speak of any step function that follows the sequencer inside an operation: the
sequencer itself, and `step` where no word stands on the `ACC` input. -/

/-- `f` is the sequencer's step in every phase but `IDLE`, where `a` stands on the `ACC` input. -/
def Follows (f : State → Result) (a : Option AccWord) : Prop := ∀ s, s.acc = a → s.ph ≠ .idle → f s = seqStep s

theorem follows_seqStep (a : Option AccWord) : Follows seqStep a := fun _ _ _ => rfl

theorem framePhase_ne_idle (n o : Nat) : framePhase n o ≠ .idle := by
  by_cases h : o < 6
  · match o, h with
    | 0, _ | 1, _ | 2, _ | 3, _ | 4, _ | 5, _ => exact Phase.noConfusion
  · rw [framePhase_past (by omega)]
    split_ifs <;> exact Phase.noConfusion

section
variable {f : State → Result} {a : Option AccWord} (hf : Follows f a)
include hf

/-- A run along the walk of a packet. -/
theorem iterate_frame (u : State) (ha : u.acc = a) (o k : Nat) (h : o + k ≤ 7 + u.len.toNat) :
    iterate f k (frame u o) = if k = 0 ∨ o + k ≤ u.dst.size then .next (frame u (o + k)) else .refused .dstOverrun := by
  induction k generalizing o with
  | zero => simp
  | succ k ih =>
    rw [iterate_succ, hf (frame u o) ha (framePhase_ne_idle _ _), seqStep_frame u o (by omega)]
    by_cases hd : o < u.dst.size
    · rw [if_pos hd, andThen_next, ih (o + 1) (by omega), show o + (k + 1) = o + 1 + k by omega]
      by_cases hk : o + 1 + k ≤ u.dst.size
      · simp [hk]
      · simp [hk, show k ≠ 0 by omega]
    · simp [hd, show ¬ o + (k + 1) ≤ u.dst.size by omega]

/-- The step that sends the response. -/
theorem iterate_resp {x : State} (ha : x.acc = a) (hp : x.ph = .resp) : iterate f 1 x = seqResp x := by
  rw [iterate_one, hf x ha (by rw [hp]; exact Phase.noConfusion)]
  simp only [seqStep, hp]

/-- The whole walk and the response are what the atomic meaning writes (R102). -/
theorem iterate_writePacket (u : State) (ha : u.acc = a) : iterate f (9 + u.len.toNat) (frame u 0) = writePacket u := by
  rw [show 9 + u.len.toNat = (7 + u.len.toNat) + (1 + 1) by omega, iterate_add, iterate_frame hf u ha 0 _ (by omega)]
  by_cases hd : 7 + u.len.toNat ≤ u.dst.size
  · rw [if_pos (.inr (by omega)), andThen_next, Nat.zero_add, iterate_succ,
      hf (frame u _) ha (framePhase_ne_idle _ _), seqStep_frame_last]
    by_cases hd' : 7 + u.len.toNat < u.dst.size
    · rw [if_pos hd', andThen_next, writePacket_inside u (by omega), iterate_resp hf]
      · rfl
      · exact ha
      · rfl
    · rw [if_neg hd', andThen_refused, writePacket_outside u (by omega)]
  · rw [if_neg (by omega), andThen_refused, writePacket_outside u (by omega)]

/-- The `LOAD` steps are field intake. -/
theorem iterate_load (ws : List FldBeat) (s : State) (ha : s.acc = a) (hp : s.ph = .load) (hw : s.fld = ws) :
    ∃ k, iterate f k s = intake ws s := by
  induction ws generalizing s with
  | nil => exact ⟨0, by simp [intake, ← hw]⟩
  | cons w ws ih =>
    by_cases hz : s.nfr = 0
    · exact ⟨0, by rw [intake, if_pos hz, ← hw]; rfl⟩
    · have e : f s = takeBeat w { s with fld := ws } := by
        rw [hf s ha (by rw [hp]; exact Phase.noConfusion)]
        simp only [seqStep, hp, seqLoad, if_neg hz, hw]
      obtain ⟨k, hk⟩ := iterate_bind ⟨1, iterate_one f s⟩ (g := intake ws) fun t ht => by
        rw [e] at ht
        have h1 := (takeBeat_inv ht).1
        exact ih t (by rw [h1]; exact ha) (by rw [h1]; exact hp) (by rw [h1])
      refine ⟨k, hk.trans ?_⟩
      rw [e, takeBeat_fld, andThen_assoc, intake, if_neg hz]
      congr 1
      funext t
      exact intake_fld ws t ws

/-- From `CHECK` on, a `BUILD` comes to what follows length determination. -/
theorem iterate_check (x : State) (ha : x.acc = a) (ho : x.op = .build) :
    ∃ k, iterate f k { x with ph := .check } =
      if bufferTooSmall x.cap x.len then .next (raiseError .bufferTooSmall x) else writePacket x := by
  have e : f { x with ph := .check } = seqCheck { x with ph := .check } := hf _ ha Phase.noConfusion
  by_cases hb : bufferTooSmall x.cap x.len = true
  · refine ⟨1 + 1, ?_⟩
    rw [iterate_add, iterate_one, e, if_pos hb]
    simp only [seqCheck, ho, if_pos hb, andThen_next]
    rw [← ho, iterate_resp hf]
    · rfl
    · exact ha
    · rfl
  · refine ⟨1 + (9 + x.len.toNat), ?_⟩
    rw [iterate_add, iterate_one, e, if_neg hb]
    simp only [seqCheck, ho, if_neg hb, andThen_next]
    rw [← ho]
    exact (iterate_writePacket hf { x with ph := .check } ha).trans (writePacket_ph x .check)

/-- From `LOAD` on, a `BUILD` comes to what its atomic meaning makes of the beats that are there. -/
theorem iterate_build (u : State) (ha : u.acc = a) (hp : u.ph = .load) (ho : u.op = .build) :
    ∃ k, iterate f k u = andThen (intake u.fld u) fun t => if t.nfr = 0 then finishBuild t else .next t := by
  refine iterate_bind (iterate_load hf u.fld u ha hp rfl) fun t ht => ?_
  have h1 := (intake_inv ht).1
  have ta : t.acc = a := by rw [h1]; exact ha
  have tp : t.ph = .load := by rw [h1]; exact hp
  have tb : t.op = .build := by rw [h1]; exact ho
  split
  · next hz =>
    have e : f t = andThen (determineLength t) fun x => .next { x with ph := .check } := by
      rw [hf t ta (by rw [tp]; exact Phase.noConfusion)]
      simp only [seqStep, tp, seqLoad_done hz]
    obtain ⟨k, hk⟩ := iterate_bind (f := f) (s := t) (o := f t)
      (g := fun v => if bufferTooSmall v.cap v.len then .next (raiseError .bufferTooSmall v) else writePacket v)
      ⟨1, iterate_one f t⟩ fun v hv => by
        rw [e] at hv
        obtain ⟨x, hx, hv⟩ := andThen_eq_next.1 hv
        have hx1 := (determineLength_inv hx).2
        cases hv
        exact iterate_check hf { x with ph := .check } (by rw [hx1]; exact ta) (by rw [hx1]; exact tb)
    refine ⟨k, hk.trans ?_⟩
    rw [e, finishBuild, andThen_assoc]
    congr 1
    funext v
    rw [andThen_next]
    dsimp only
    split
    · rfl
    · exact writePacket_ph v .check
  · exact ⟨0, rfl⟩

/-- The `RANGE` steps that read are the range reader. -/
theorem iterate_range (n : Nat) (s : State) (ha : s.acc = a) (hp : s.ph = .range) (hn : s.off.toNat + n = s.cnt.toNat) :
    ∃ k, iterate f k s = andThen (absorbRange n s.off.toNat s) fun t => .next { t with off := s.cnt } := by
  induction n generalizing s with
  | zero =>
    refine ⟨0, ?_⟩
    have : s.off = s.cnt := BitVec.eq_of_toNat_eq hn
    cases s
    simp_all [absorbRange]
  | succ n ih =>
    have hlt : s.off.toNat < s.cnt.toNat := by omega
    have := s.cnt.isLt
    have ho : (s.off + 1).toNat = s.off.toNat + 1 := by simp; omega
    have e : f s = seqRange s := by
      rw [hf s ha (by rw [hp]; exact Phase.noConfusion)]
      simp only [seqStep, hp]
    cases hr : readSrc s.off.toNat s with
    | error r =>
      refine ⟨1, ?_⟩
      simp only [iterate_one, e, seqRange, if_pos hlt, absorbRange, hr, andThen_refused]
    | ok b =>
      obtain ⟨k, hk⟩ := ih { absorb b s with off := s.off + 1 } ha hp (by rw [ho]; show _ = s.cnt.toNat; omega)
      refine ⟨k + 1, ?_⟩
      simp only [iterate_succ, e, seqRange, if_pos hlt, absorbRange, hr, driveAcc_absWord, andThen_next]
      refine hk.trans ?_
      simp only [ho]
      exact absorbRange_off _ _ _ _ _

end

/-- The command a beat decodes to is what the sequencer takes in. -/
theorem seqStep_idle {s : State} {w : CmdBeat} {ws : List CmdBeat} {c : Command} (hp : s.ph = .idle)
    (hc : s.cmd = w :: ws) (hd : decodeCmd w = .ok c) : seqStep s = seqCommand c { s with cmd := ws } := by
  simp only [seqStep, hp, seqIdle, hc, hd]

end Sys2Proof.Machine
end

