-- ==== Sys2Proof/Laws/System.lean ====
section
/-! SUPPORT. What a step of an instance, a host action on one and the placing of an instance's state do to
a system; and what sending several field beats does to a core. -/

namespace Sys2Proof.Machine

@[simp] theorem System.put_mem (y : System) (j : Nat) (t : State) : (y.put j t).mem = t.mem := rfl

@[simp] theorem System.put_length (y : System) (j : Nat) (t : State) : (y.put j t).cores.length = y.cores.length := by
  simp [System.put]

theorem System.put_other (y : System) (t : State) {i j : Nat} (h : i ≠ j) : (y.put j t).cores[i]? = y.cores[i]? := by
  simp [System.put, Ne.symm h]

theorem System.put_same (y : System) (t : State) {j : Nat} (h : j < y.cores.length) :
    (y.put j t).cores[j]? = some { t with mem := [] } := by simp [System.put, h]

/-- Everything a step of an instance that is there can be: the core's own, over the common memory. -/
theorem System.stepAt_some {y : System} {j : Nat} {c : State} (h : y.cores[j]? = some c) :
    y.stepAt j =
      match step (y.view c) with
      | .next t => .next (y.put j t)
      | .fault r => .fault r
      | .refused r => .refused r := by cases e : step (y.view c) <;> simp [System.stepAt, h, e]

theorem System.stepAt_none {y : System} {j : Nat} (h : y.cores[j]? = none) : y.stepAt j = .next y := by
  simp only [System.stepAt, h]

theorem System.hostActAt_some {y : System} {j : Nat} {c : State} (h : y.cores[j]? = some c) (a : HostAction) :
    y.hostActAt j a = y.put j (hostAct a (y.view c)) := by simp only [System.hostActAt, h]

theorem System.hostActAt_none {y : System} {j : Nat} (h : y.cores[j]? = none) (a : HostAction) :
    y.hostActAt j a = y := by simp only [System.hostActAt, h]

/-- A legal instance over a canonical memory is a legal core. -/
theorem System.view_inv {y : System} {j : Nat} {c : State} (hy : y.Inv) (hc : y.cores[j]? = some c) :
    Machine.Inv (y.view c) := ⟨hy.1, (hy.2 c (List.mem_of_getElem? hc)).2⟩

/-- A legal core placed in a legal system leaves it legal. -/
theorem System.put_inv {y : System} {j : Nat} {t : State} (hy : y.Inv) (ht : Machine.Inv t) : (y.put j t).Inv := by
  refine ⟨ht.1, fun c hc => ?_⟩
  obtain h | rfl := List.mem_or_eq_of_mem_set hc
  · exact hy.2 c h
  · exact ⟨rfl, ht.2⟩

/-- Sending field beats one after another appends them to `FLD`. -/
theorem foldl_sendFld (ws : List FldBeat) (s : State) :
    ws.foldl (fun u w => sendFld w u) s = { s with fld := s.fld ++ ws } := by
  induction ws generalizing s with
  | nil => simp
  | cons w ws ih => rw [List.foldl_cons, ih, sendFld, List.append_assoc, List.singleton_append]

end Sys2Proof.Machine
end

