-- ==== Sys2Proof/Tests/Slice0.lean ====
section
/-! SUPPORT. Tests of the model, expected values from spec/95_test_vectors.md (named in each comment) or
from the encodings of spec/30_encoding.md; and a witness for each statement that has hypotheses. -/

open Sys2Proof Sys2Proof.Machine

namespace Sys2Proof.Tests

/-- Reset, with commands and fields sent, the ports bound and some memory listed. -/
def start (cmd : List CmdBeat) (fld : List FldBeat) (src dst : Port) (mem : Memory) : State :=
  { State.reset with cmd := cmd, fld := fld, src := src, dst := dst, mem := mem }

/-- A next state with a property. -/
def nextAnd (o : Result) (p : State → Bool) : Bool :=
  match o with
  | .next s => p s
  | .fault _ => false
  | .refused _ => false

/-- A refusal for the given reason. -/
def refusedFor (o : Result) (r : Refusal) : Bool :=
  match o with
  | .next _ => false
  | .fault _ => false
  | .refused q => decide (q = r)

/-- Accumulator pair. -/
def withSums (a b : Byte) : State := { State.reset with ckA := a, ckB := b }

/-! ## What a conforming host may not send (R65, R153, R121) -/

theorem test_wf_op0_refused : Bundle.wellFormed (.cmd 0x0) = false := by decide
theorem test_wf_op3_refused : Bundle.wellFormed (.cmd 0x7FFFFFFFFFFFFFFFFFFFF) = false := by decide
theorem test_wf_kind9_refused : Bundle.wellFormed (.fld 0x9) = false := by decide
theorem test_wf_kind15_refused : Bundle.wellFormed (.fld 0xF) = false := by decide
theorem test_wf_nf_65536_refused : Instr.wellFormed (.build 0 65536 0 0 true) = false := by decide
theorem test_wf_nf_65535_allowed : Instr.wellFormed (.build 0 65535 0 0 true) = true := by decide

theorem payloadSize_replicate (n : Nat) (f : Field) : payloadSize (List.replicate n f) = n * f.1.bytes := by
  simp [payloadSize]

theorem test_wf_payload_65536_refused : payloadFits (List.replicate 8192 (.f64, 0)) = false := by
  rw [payloadFits, payloadSize_replicate]
  decide

/-! ## Decoding, each word written out from its bundle's layout -/

-- op 01 | poll 0 | cls 0 | id 0 | n 4 at bit 19 | m 4 at bit 51 (V-C9)
theorem test_decode_cksum : decode (.cmd (0b01 + 4 * 2 ^ 19 + 4 * 2 ^ 51)) = .ok (.cksum 4 4) := by decide

-- op 10 | poll 0 | cls 01 at bit 3 | id 02 at bit 11 | cap 36 at bit 19 | nf 7 at bit 51 (V-B1)
theorem test_decode_build :
    decode (.cmd (0b10 + 0x01 * 2 ^ 3 + 0x02 * 2 ^ 11 + 36 * 2 ^ 19 + 7 * 2 ^ 51)) = .ok (.build 36 7 0x01 0x02 false) := by
  decide

-- the poll bit is bit 2 (V-B20)
theorem test_decode_build_poll : decode (.cmd 0x000000007FFFFFFFFFFFE) = .ok (.build 0xFFFFFFFF 0 0xFF 0xFF true) := by
  decide

-- clr is bit 9, en bit 8, d bits 7 to 0
theorem test_decode_acc_clr : decode (.acc 0b1000000000) = .ok .accClr := by decide
theorem test_decode_acc_abs : decode (.acc 0b0100011100) = .ok (.accAbs 0x1C) := by decide
theorem test_decode_acc_hold : decode (.acc 0b0001010101) = .ok .accHold := by decide

-- kind is bits 3 to 0, val bits 67 to 4 (V-F2, V-F3, V-F4, V-F6 to V-F9, V-F11, V-F12)
theorem test_decode_u8 : decode (.fld 0xFFFFFFFFFFFFFF120) = .ok (.fldU8 0x12) := by decide
theorem test_decode_i8 : decode (.fld 0x00000000000000FF1) = .ok (.fldI8 0xFF) := by decide
theorem test_decode_raw : decode (.fld 0x00000000000000AA2) = .ok (.fldRaw 0xAA) := by decide
theorem test_decode_u16 : decode (.fld 0x00000000000012343) = .ok (.fldU16 0x1234) := by decide
theorem test_decode_i16 : decode (.fld 0x000000000000FFFE4) = .ok (.fldI16 0xFFFE) := by decide
theorem test_decode_u32 : decode (.fld 0x00000000DEADBEEF5) = .ok (.fldU32 0xDEADBEEF) := by decide
theorem test_decode_i32 : decode (.fld 0x00000000FFFFFFFF6) = .ok (.fldI32 0xFFFFFFFF) := by decide
theorem test_decode_f32 : decode (.fld 0x000000003F8000007) = .ok (.fldF32 0x3F800000) := by decide
theorem test_decode_f64 : decode (.fld 0xC0000000000000008) = .ok (.fldF64 0xC000000000000000) := by decide

-- R65
theorem test_decode_op3 : decode (.cmd 0x3) = .error (.reservedOp 3) := by decide
theorem test_decode_kind9 : decode (.fld 0x129) = .error (.reservedKind 9) := by decide

-- the word sizes of the opcode table (log 12)
theorem test_table_word_cmd : decodeTableWord 88 0x000000020000000200001 = some (.cksum 4 4) := by decide
theorem test_table_word_fld : decodeTableWord 72 0x00000000000012343 = some (.fldU16 0x1234) := by decide
theorem test_table_word_acc : decodeTableWord 16 0x11C = some (.accAbs 0x1C) := by decide

/-! ## The accumulator (V-A1, V-A6, V-A8, V-A10, V-A12) -/

theorem test_acc_clr : nextAnd (step { withSums 0x1F 0xA6 with acc := some 0x3FF })
    (fun t => t.ckA == 0 && t.ckB == 0) = true := by decide

theorem test_acc_abs_wraps : nextAnd (step { withSums 0xFF 0xFF with acc := some 0x101 })
    (fun t => t.ckA == 0 && t.ckB == 0xFF) = true := by decide

theorem test_acc_abs_uses_new_sum : nextAnd (step { withSums 0xFE 0x01 with acc := some 0x103 })
    (fun t => t.ckA == 0x01 && t.ckB == 0x02) = true := by decide

theorem test_acc_hold : nextAnd (step { withSums 0x1F 0xA6 with acc := some 0x055 })
    (fun t => t.ckA == 0x1F && t.ckB == 0xA6) = true := by decide

/-! ## CKSUM (V-C23, V-C20) -/

theorem test_cksum : nextAnd (step (start [0x00000002000000027FFFD] [] ⟨8, 4⟩ ⟨0, 0⟩ [(8, 6)]))
    (fun t => t.rsp == [0x0000000106018] && t.ckA == 0x06 && t.ckB == 0x18 && t.mem == [(8, 6)]) = true := by
  decide

theorem test_cksum_invalid_range :
    nextAnd (step { start [0x000000020000000280001] [] ⟨8, 4⟩ ⟨0, 0⟩ [(8, 6)] with ckA := 0x06, ckB := 0x18 })
      (fun t => t.rsp == [0x0000000000002] && t.ckA == 0x06 && t.ckB == 0x18) = true := by decide

/-! ## BUILD (V-B5 in program P3, V-B8) -/

theorem test_build : nextAnd (step (start [0x000000008000000480032] [0x00000000000000010] ⟨0, 0⟩ ⟨0, 9⟩ [(9, 0xEE)]))
    (fun t => t.rsp == [0x0000000248820] && dstBytes 9 t == [0xB5, 0x62, 0x06, 0x00, 0x01, 0x00, 0x01, 0x08, 0x22]
      && t.mem.read 9 == 0xEE && t.fld == []) = true := by decide +kernel

theorem test_build_too_small :
    nextAnd (step { start [0x000000008000000400032] [0x00000000000000010] ⟨0, 0⟩ ⟨0, 8⟩ [(0, 0xEE), (7, 0xEE)] with
        ckA := 0x1F, ckB := 0xA6 })
      (fun t => t.rsp == [0x0000000000001] && t.mem == [(0, 0xEE), (7, 0xEE)] && t.ckA == 0x1F && t.ckB == 0xA6
        && t.fld == []) = true := by decide +kernel

/-! ## Field kinds (V-F2 to V-F4, V-F6 to V-F9, V-F12, V-F13) -/

/-- What a beat taken in `LOAD` with one byte already staged leaves staged after that byte. -/
def stages (w : FldBeat) (bs : List Byte) : Bool :=
  nextAnd (step { State.reset with ph := .load, op := .build, nfr := 2, plen := 1, pbuf := [0x77], fld := [w] })
    (fun t => t.pbuf == 0x77 :: bs && t.plen == BitVec.ofNat 17 (1 + bs.length) && t.nfr == 1 && t.fld == [])

theorem test_u8 : stages 0xFFFFFFFFFFFFFF120 [0x12] = true := by decide
theorem test_i8 : stages 0x00000000000000FF1 [0xFF] = true := by decide
theorem test_raw : stages 0x00000000000000AA2 [0xAA] = true := by decide
theorem test_u16 : stages 0x00000000000012343 [0x34, 0x12] = true := by decide
theorem test_i16 : stages 0x000000000000FFFE4 [0xFE, 0xFF] = true := by decide
theorem test_u32 : stages 0x00000000DEADBEEF5 [0xEF, 0xBE, 0xAD, 0xDE] = true := by decide
theorem test_i32 : stages 0x00000000FFFFFFFF6 [0xFF, 0xFF, 0xFF, 0xFF] = true := by decide
theorem test_f32 : stages 0x000000007FC000017 [0x01, 0x00, 0xC0, 0x7F] = true := by decide
theorem test_f64 : stages 0xC0000000000000008 [0, 0, 0, 0, 0, 0, 0, 0xC0] = true := by decide

/-! ## The host's entry: a table word is run by the first step after reset (log 12, log 13) -/

theorem test_fetch_word_cksum : nextAnd (step (State.reset.withFetchWord 88 0x1))
    (fun t => t.rsp == [0] && t.op == .cksum) = true := by decide
theorem test_fetch_word_build : nextAnd (step (State.reset.withFetchWord 88 0x2))
    (fun t => t.rsp == [1] && t.op == .build) = true := by decide
theorem test_fetch_word_f64 : nextAnd (step (State.reset.withFetchWord 72 0x8)) (fun t => t.plen == 8) = true := by
  decide
theorem test_fetch_word_abs : nextAnd (step (State.reset.withFetchWord 16 0x1FF)) (fun t => t.ckA == 0xFF) = true := by
  decide

/-! ## The walk of program P6 -/

/-- The start of P6: `BUILD 9, 06, 00, 0, [U8 01]`, `DST` nine bytes of `EE` at 16. -/
def p6 : State := start [0x000000008000000480032] [0x00000000000000010] ⟨0, 0⟩ ⟨16, 9⟩
  ((List.range 9).map fun k => (16 + k, 0xEE))

/-- The start of P6's `CKSUM 2, 2`, `SRC` bound to `[01 02]`, accumulator (08, 22). -/
def p6c : State := { start [0x000000010000000100001] [] ⟨0, 2⟩ ⟨0, 0⟩ [(0, 1), (1, 2)] with ckA := 0x08, ckB := 0x22 }

/-- `PH` and the sums before each of the first `n` steps of a run. -/
def walk : Nat → State → List (Phase × Byte × Byte)
  | 0, s => [(s.ph, s.ckA, s.ckB)]
  | n + 1, s =>
    (s.ph, s.ckA, s.ckB) ::
      match seqStep s with
      | .next t => walk n t
      | .fault _ => []
      | .refused _ => []

theorem test_walk_build : walk 14 p6 =
    [(.idle, 0, 0), (.load, 0, 0), (.load, 0, 0), (.check, 0, 0), (.sync1, 0, 0), (.sync2, 0, 0), (.cls, 0, 0),
     (.idb, 0x06, 0x06), (.lenLo, 0x06, 0x0C), (.lenHi, 0x07, 0x13), (.payload, 0x07, 0x1A), (.cka, 0x08, 0x22),
     (.ckb, 0x08, 0x22), (.resp, 0x08, 0x22), (.idle, 0x08, 0x22)] := by decide +kernel

theorem test_walk_cksum : walk 6 p6c =
    [(.idle, 0x08, 0x22), (.check, 0x08, 0x22), (.range, 0, 0), (.range, 0x01, 0x01), (.range, 0x03, 0x04),
     (.resp, 0x03, 0x04), (.idle, 0x03, 0x04)] := by decide +kernel

/-! ## Witnesses: every statement's hypotheses can be met -/

theorem witness_CommandOperandsByBitPosition :
    (∃ w : CmdBeat, w.toNat % 4 = 1) ∧ ∃ w : CmdBeat, w.toNat % 4 = 2 := ⟨⟨0x1, by decide⟩, 0x2, by decide⟩

theorem witness_IgnoredBitsHaveNoEffect :
    (∃ w w' : CmdBeat, w ≠ w' ∧ cmdOp w = 1 ∧ cmdOp w' = 1 ∧ ∀ n, 19 ≤ n → w.getLsbD n = w'.getLsbD n) ∧
    (∃ (w w' : FldBeat) (k : FieldKind), w ≠ w' ∧ FieldKind.ofCode (fldKind w) = some k ∧
      ∀ n, n < 4 + 8 * k.bytes → w.getLsbD n = w'.getLsbD n) ∧
    (∃ w w' : AccWord, w ≠ w' ∧ accClrBit w = true ∧ accClrBit w' = true) ∧
    ∃ w w' : AccWord, w ≠ w' ∧ accClrBit w = false ∧ accEnBit w = false ∧ accClrBit w' = false ∧ accEnBit w' = false := by
  refine ⟨⟨0x1, 0x7FFFD, by decide, by decide, by decide, fun n h => ?_⟩,
    ⟨0x120, 0x1120, .u8, by decide, by decide, ?_⟩, ⟨0x200, 0x3FF, by decide, by decide, by decide⟩,
    0x000, 0x0FF, by decide, by decide, by decide, by decide, by decide⟩
  · rw [show (0x1 : CmdBeat) = BitVec.ofNat 83 (2 ^ 1 - 1) by decide,
      show (0x7FFFD : CmdBeat) = BitVec.ofNat 83 (2 ^ 19 - 1) ^^^ BitVec.ofNat 83 2 by decide]
    simp only [BitVec.getLsbD_xor, BitVec.getLsbD_ofNat, Nat.testBit_two_pow_sub_one]
    have h2 : Nat.testBit 2 n = false := Nat.testBit_lt_two_pow (by
      calc 2 < 2 ^ 19 := by decide
        _ ≤ 2 ^ n := Nat.pow_le_pow_right (by decide) h)
    simp [h2, show ¬ n < 1 by omega, show ¬ n < 19 by omega]
  · decide

theorem witness_ReservedCodesAreRefused :
    (∃ (s : State) (w : CmdBeat) (ws : List CmdBeat), s.acc = none ∧ s.ph = .idle ∧ s.cmd = w :: ws ∧ w.toNat % 4 = 0) ∧
    (∃ (s : State) (w : CmdBeat) (ws : List CmdBeat), s.acc = none ∧ s.ph = .idle ∧ s.cmd = w :: ws ∧ w.toNat % 4 = 3) ∧
    (∃ (s : State) (w : FldBeat) (ws : List FldBeat), s.acc = none ∧ s.ph = .load ∧ s.nfr ≠ 0 ∧ s.fld = w :: ws ∧
      w.toNat % 16 = 9) ∧
    ∃ (s : State) (nf : Word) (F : List Field) (w : FldBeat) (ws : List FldBeat),
      s.fld = F.map Field.beat ++ w :: ws ∧ F.length < nf.toNat ∧ payloadSize F ≤ 65535 ∧ w.toNat % 16 = 15 :=
  ⟨⟨start [0] [] ⟨0, 0⟩ ⟨0, 0⟩ [], 0, [], by decide⟩, ⟨start [3] [] ⟨0, 0⟩ ⟨0, 0⟩ [], 3, [], by decide⟩,
    ⟨{ State.reset with ph := .load, nfr := 1, fld := [9] }, 9, [], by decide⟩,
    start [] [Field.beat (.u8, 1), 0xF] ⟨0, 0⟩ ⟨0, 0⟩ [], 2, [(.u8, 1)], 0xF, [], by decide⟩

theorem witness_AccClearZeroesBothSums : ∃ w : AccWord, w.getLsbD 9 = true := ⟨0x200, by decide⟩

theorem witness_AccAbsorbAddsModulo256 : ∃ w : AccWord, w.getLsbD 9 = false ∧ w.getLsbD 8 = true := ⟨0x1FF, by decide⟩

theorem witness_AccHoldKeepsEverything : ∃ w : AccWord, w.getLsbD 9 = false ∧ w.getLsbD 8 = false := ⟨0x055, by decide⟩

/-- A four-byte buffer, and ranges of 4 and 5. -/
def buf4 : State := start [] [] ⟨8, 4⟩ ⟨0, 0⟩ [(8, 6)]

theorem witness_CksumIsOneAtomicTransition :
    (∃ (s : State) (length blen : Word), length.toNat ≤ blen.toNat ∧ length.toNat ≤ s.src.size) ∧
    ∃ length blen : Word, blen.toNat < length.toNat := ⟨⟨buf4, 4, 4, by decide⟩, 5, 4, by decide⟩

theorem witness_InvalidRangeComputesNothing : ∃ length blen : Word, blen.toNat < length.toNat := ⟨1, 0, by decide⟩

theorem witness_CksumDependsOnItsRangeOnly :
    ∃ (s s' : State) (length blen blen' : Word), s ≠ s' ∧ length.toNat ≤ blen.toNat ∧ length.toNat ≤ blen'.toNat ∧
      length.toNat ≤ s.src.size ∧ length.toNat ≤ s'.src.size ∧
      ∀ k, k < length.toNat → s.mem.read (s.src.base + k) = s'.mem.read (s'.src.base + k) :=
  ⟨buf4, start [] [] ⟨0, 5⟩ ⟨0, 0⟩ [(0, 6), (4, 1)], 4, 4, 5, by decide⟩

theorem witness_ReadBeyondTheBoundBufferIsRefused :
    ∃ (s : State) (length blen : Word), length.toNat ≤ blen.toNat ∧ s.src.size < length.toNat := ⟨buf4, 5, 5, by decide⟩

theorem witness_OneByteFieldsStageTheirByte :
    (∃ s : State, s.plen.toNat + 1 = 65535) ∧ (∃ w : FldBeat, w.toNat % 16 = 0) ∧ (∃ w : FldBeat, w.toNat % 16 = 1) ∧
      ∃ w : FldBeat, w.toNat % 16 = 2 :=
  ⟨⟨{ State.reset with plen := 65534 }, by decide⟩, ⟨0x120, by decide⟩, ⟨0xFF1, by decide⟩, 0xAA2, by decide⟩

theorem witness_TwoByteFieldsStageLowByteFirst :
    (∃ s : State, s.plen.toNat + 2 = 65535) ∧ (∃ w : FldBeat, w.toNat % 16 = 3) ∧ ∃ w : FldBeat, w.toNat % 16 = 4 :=
  ⟨⟨{ State.reset with plen := 65533 }, by decide⟩, ⟨0x12343, by decide⟩, 0xFFFE4, by decide⟩

theorem witness_FourByteFieldsStageLowByteFirst :
    (∃ s : State, s.plen.toNat + 4 = 65535) ∧ (∃ w : FldBeat, w.toNat % 16 = 5) ∧ (∃ w : FldBeat, w.toNat % 16 = 6) ∧
      ∃ w : FldBeat, w.toNat % 16 = 7 :=
  ⟨⟨{ State.reset with plen := 65531 }, by decide⟩, ⟨0x5, by decide⟩, ⟨0x6, by decide⟩, 0x7, by decide⟩

theorem witness_EightByteFieldStagesLowByteFirst :
    (∃ s : State, s.plen.toNat + 8 = 65535) ∧ ∃ w : FldBeat, w.toNat % 16 = 8 :=
  ⟨⟨{ State.reset with plen := 65527 }, by decide⟩, 0xC0000000000000008, by decide⟩

theorem witness_SerialisationIsDenseLittleEndian : ∃ (f : Field) (i : Nat), i < f.1.bytes := ⟨(.f64, 0), 7, by decide⟩

theorem witness_PayloadOver65535IsRefused :
    (∃ (s : State) (f : Field), s.plen.toNat + f.1.bytes = 65536) ∧
    ∃ (s : State) (nf : Word) (F : List Field) (rest : List FldBeat),
      s.fld = F.map Field.beat ++ rest ∧ F.length = nf.toNat ∧ 65535 < payloadSize F := by
  refine ⟨⟨{ State.reset with plen := 65528 }, (.f64, 0), by decide⟩,
    start [] ((List.replicate 8192 (.f64, 0)).map Field.beat ++ []) ⟨0, 0⟩ ⟨0, 0⟩ [], 8192,
    List.replicate 8192 (.f64, 0), [], rfl, ?_, ?_⟩
  · rw [List.length_replicate]
    decide
  · rw [payloadSize_replicate]
    decide

/-- The premises that the statements about a successful `BUILD` share. -/
abbrev Fits (s : State) (cap nf : Word) (poll : Bool) (F : List Field) (rest : List FldBeat) : Prop :=
  s.mem.wf = true ∧ s.fld = F.map Field.beat ++ rest ∧ F.length = nf.toNat ∧ payloadSize F ≤ 65535 ∧
    packetSize poll F ≤ cap.toNat ∧ packetSize poll F ≤ s.dst.size

/-- The fields of V-B17 and one beat of the next operation, `DST` ten bytes. -/
def b17 : State := start [] [0x00000000000000062, 0x00000000000000012, 0x8] ⟨0, 0⟩ ⟨16, 10⟩ [(16, 0xEE)]

theorem witness_BuildIsOneAtomicTransition : Fits b17 10 2 false [(.raw, 6), (.raw, 1)] [0x8] := by decide

theorem witness_BuildIsOneAtomicTransition_poll : Fits b17 8 2 true [(.raw, 6), (.raw, 1)] [0x8] := by decide

theorem witness_LengthFieldCountsThePayload : Fits b17 10 2 false [(.raw, 6), (.raw, 1)] [0x8] := by decide

theorem witness_BuiltPacketVerifiesByCksum : Fits b17 10 2 false [(.raw, 6), (.raw, 1)] [0x8] := by decide

theorem witness_PollPacketIgnoresItsFields :
    ∃ (s : State) (cap nf : Word) (F : List Field) (rest : List FldBeat), s.mem.wf = true ∧
      s.fld = F.map Field.beat ++ rest ∧ F.length = nf.toNat ∧ payloadSize F ≤ 65535 ∧ cap.toNat = 8 ∧ 8 ≤ s.dst.size :=
  ⟨b17, 8, 2, [(.raw, 6), (.raw, 1)], [0x8], by decide⟩

theorem witness_BuildIsOneAtomicTransition_tooSmall :
    ∃ (s : State) (cap nf : Word) (poll : Bool) (F : List Field) (rest : List FldBeat), s.mem.wf = true ∧
      s.fld = F.map Field.beat ++ rest ∧ F.length = nf.toNat ∧ payloadSize F ≤ 65535 ∧ cap.toNat + 1 = packetSize poll F :=
  ⟨b17, 9, 2, false, [(.raw, 6), (.raw, 1)], [0x8], by decide⟩

theorem witness_BuildIsOneAtomicTransition_tooLarge :
    ∃ (s : State) (nf : Word) (F : List Field) (rest : List FldBeat), s.mem.wf = true ∧
      s.fld = F.map Field.beat ++ rest ∧ F.length = nf.toNat ∧ 65535 < payloadSize F := by
  obtain ⟨s, nf, F, rest, h⟩ := witness_PayloadOver65535IsRefused.2
  exact ⟨{ s with mem := [] }, nf, F, rest, rfl, h⟩

theorem witness_BufferTooSmallWritesNothing :
    (∃ (s : State) (cap nf : Word) (poll : Bool) (F : List Field) (rest : List FldBeat),
      s.fld = F.map Field.beat ++ rest ∧ F.length = nf.toNat ∧ payloadSize F ≤ 65535 ∧
      cap.toNat + 1 = 8 + if poll then 0 else payloadSize F) ∧
    nextAnd (exec (.build 8 2 0x05 0x01 true) b17) (fun t => t.fld == [0x8]) = true :=
  ⟨⟨b17, 9, 2, false, [(.raw, 6), (.raw, 1)], [0x8], by decide⟩, by decide +kernel⟩

theorem witness_EachOperationRaisesOnlyItsOwnError :
    nextAnd (exec (.cksum 4 4) buf4) (fun t => t.rsp == [0x0000000106018]) = true ∧
    nextAnd (exec (.cksum 5 4) buf4) (fun t => t.rsp == [2]) = true ∧
    nextAnd (exec (.build 9 2 0x05 0x01 false) b17) (fun t => t.rsp == [1]) = true ∧
    nextAnd (exec (.build 10 2 0x05 0x01 false) b17) (fun t => t.rsp == [0x000000028E03C]) = true ∧
    nextAnd (exec (.build 10 4 0x05 0x01 false) b17) (fun t => t.ph == .load && t.rsp == []) = true :=
  ⟨by decide +kernel, by decide +kernel, by decide +kernel, by decide +kernel, by decide +kernel⟩

theorem witness_EmptyMessageIsWrittenAsAPoll :
    nextAnd (exec (.build 8 0 0x06 0x00 true) b17) (fun t => t.ckA == 0x06) = true := by decide +kernel

theorem witness_EmptyMessageIsWrittenAsAPoll_tooSmall :
    nextAnd (exec (.build 7 0 0x06 0x00 true) b17) (fun t => t.rsp == [1]) = true := by decide +kernel

theorem witness_BuildReadsNoEarlierState :
    ∃ (s s' : State) (nf : Word) (poll : Bool) (F : List Field) (rest rest' : List FldBeat), s ≠ s' ∧
      s.mem.wf = true ∧ s'.mem.wf = true ∧ s.fld = F.map Field.beat ++ rest ∧ s'.fld = F.map Field.beat ++ rest' ∧
      F.length = nf.toNat ∧ payloadSize F ≤ 65535 ∧ packetSize poll F ≤ s.dst.size ∧ packetSize poll F ≤ s'.dst.size :=
  ⟨b17, { b17 with ckA := 1, pbuf := [9], mem := [] }, 2, false, [(.raw, 6), (.raw, 1)], [0x8], [0x8], by decide⟩

theorem witness_WriteBeyondTheBoundBufferIsRefused :
    ∃ (s : State) (cap nf : Word) (poll : Bool) (F : List Field) (rest : List FldBeat),
      s.fld = F.map Field.beat ++ rest ∧ F.length = nf.toNat ∧ payloadSize F ≤ 65535 ∧
      packetSize poll F ≤ cap.toNat ∧ s.dst.size < packetSize poll F :=
  ⟨{ b17 with dst := ⟨16, 9⟩ }, 10, 2, false, [(.raw, 6), (.raw, 1)], [0x8], by decide⟩

theorem exists_next_and {o : Result} {p : State → Bool} (h : nextAnd o p = true) : ∃ t, o = .next t ∧ p t = true := by
  cases o with
  | next t => exact ⟨t, rfl, h⟩
  | fault r => cases h
  | refused r => cases h

theorem exists_next {o : Result} {p : State → Bool} (h : nextAnd o p = true) : ∃ t, o = .next t :=
  have ⟨t, h, _⟩ := exists_next_and h
  ⟨t, h⟩

theorem witness_BuildWaitsForItsBeats :
    ∃ (s : State) (nf : Word) (F : List Field), s.fld = F.map Field.beat ∧ F.length < nf.toNat ∧
      payloadSize F ≤ 65535 ∧ s.acc = none := ⟨b17, 4, [(.raw, 6), (.raw, 1), (.f64, 0)], by decide⟩

theorem witness_LateBeatsCompleteAWaitingBuild :
    ∃ t, exec (.build 10 4 0x05 0x01 false) b17 = .next t ∧ t.ph = .load ∧ b17.acc = none := by
  obtain ⟨t, h⟩ := exists_next_and (o := exec (.build 10 4 0x05 0x01 false) b17) (p := fun t => t.ph == .load) (by
    decide +kernel)
  exact ⟨t, h.1, by simpa using h.2, rfl⟩

/-- V-B5 with its field beat sent after the command: two steps, and the packet's length is determined. -/
theorem test_build_late_beat :
    nextAnd (stepRun 1 { p6 with fld := [] }) (fun t => t.ph == .load && t.rsp == [] &&
      nextAnd (stepRun 2 (sendFld 0x00000000000000010 t)) (fun u => u.ph == .check && u.len == 1)) = true := by
  decide +kernel

theorem witness_StepRunsTheDecodedInstruction :
    (∃ (s : State) (w : CmdBeat) (ws : List CmdBeat) (i : Instr), s.acc = none ∧ s.ph = .idle ∧ s.cmd = w :: ws ∧
      decode (.cmd w) = .ok i) ∧
    (∃ (s : State) (w : FldBeat) (ws : List FldBeat) (i : Instr), s.acc = none ∧ s.ph = .load ∧ s.nfr ≠ 0 ∧
      s.fld = w :: ws ∧ decode (.fld w) = .ok i) ∧
    ∃ (s : State) (w : AccWord) (i : Instr), s.acc = some w ∧ decode (.acc w) = .ok i :=
  ⟨⟨p6c, 0x000000010000000100001, [], .cksum 2 2, by decide⟩,
    ⟨{ State.reset with ph := .load, nfr := 1, fld := [0x12343] }, 0x12343, [], .fldU16 0x1234, by decide⟩,
    { State.reset with acc := some 0x11C }, 0x11C, .accAbs 0x1C, by decide⟩

theorem witness_PlacedTableWordRunsNext :
    decodeTableWord 83 0x1 = some (.cksum 0 0) ∧ decodeTableWord 68 0x8 = some (.fldF64 0) ∧
      decodeTableWord 10 0x200 = some .accClr := by decide

theorem witness_WaitingCoreKeepsItsState :
    (∃ s : State, s.acc = none ∧ s.ph = .idle ∧ s.cmd = []) ∧
    ∃ s : State, s.acc = none ∧ s.ph = .load ∧ s.nfr ≠ 0 ∧ s.fld = [] :=
  ⟨⟨State.reset, by decide⟩, { State.reset with ph := .load, nfr := 1 }, by decide⟩

theorem witness_WaitingCoreHasEndedOrIsStuck :
    (∃ s : State, s.acc = none ∧ Ended s) ∧ ∃ s : State, s.acc = none ∧ Stuck s :=
  ⟨⟨State.reset, rfl, rfl, rfl⟩, { State.reset with ph := .load, nfr := 1 }, rfl, rfl, by decide, rfl⟩

/-- The invariant in the start state of P6: for the statements about every step. -/
theorem p6_inv : Inv p6 := ⟨by decide, by decide, by decide, by decide, rfl⟩

theorem p6_step : nextAnd (step p6) (fun t => t.rsp == [0x0000000248820]) = true := by decide +kernel

theorem witness_StepKeepsInvariant : ∃ s t : State, Inv s ∧ step s = .next t :=
  have ⟨t, h⟩ := exists_next p6_step
  ⟨p6, t, p6_inv, h⟩

theorem witness_HostActionsKeepInvariant : ∃ s : State, Inv s := ⟨p6, p6_inv⟩

theorem witness_EveryRunEndsSticksOrIsRefused : ∃ s : State, Inv s := ⟨p6, p6_inv⟩

/-- Two commands, two steps: each has had its response, and the run has ended. -/
theorem test_run_ends : nextAnd (stepRun 2 { p6 with cmd := p6.cmd ++ [0x1] })
    (fun t => decide (t.ph = .idle ∧ t.cmd = []) && t.rsp == [0x0000000248820, 0]) = true := by decide +kernel

theorem witness_NoStepFaults : ∃ s : State, Inv s := ⟨p6, p6_inv⟩

theorem witness_StepWritesInsideDestinationOnly : ∃ s t : State, Inv s ∧ step s = .next t := witness_StepKeepsInvariant

theorem witness_OneResponsePerCommand : ∃ s t : State, step s = .next t :=
  have ⟨t, h⟩ := exists_next p6_step
  ⟨p6, t, h⟩

theorem witness_SequencerRefinesCksum :
    ∃ (s : State) (w : CmdBeat) (ws : List CmdBeat) (length blen : Word), s.ph = .idle ∧ s.cmd = w :: ws ∧
      decode (.cmd w) = .ok (.cksum length blen) := ⟨p6c, 0x000000010000000100001, [], 2, 2, by decide⟩

theorem witness_SequencerRefinesBuild :
    ∃ (s : State) (w : CmdBeat) (ws : List CmdBeat) (cap nf : Word) (cls id : Byte) (poll : Bool), s.ph = .idle ∧
      s.cmd = w :: ws ∧ decode (.cmd w) = .ok (.build cap nf cls id poll) :=
  ⟨p6, 0x000000008000000480032, [], 9, 1, 0x06, 0x00, false, by decide⟩

theorem witness_StepFollowsSequencerInsideOperation : ∃ s : State, s.acc = none ∧ s.ph ≠ .idle :=
  ⟨{ State.reset with ph := .resp }, by decide⟩

/-- Every phase is one from which a run of P6 makes a step: the walks above pass through all of them, and
this is the one that no packet of P6 takes, the skip of `PAYLOAD`. -/
theorem witness_PhasesFollowTheFixedWalk_skip :
    nextAnd (seqStep { State.reset with ph := .lenHi, op := .build, len := 0, dst := ⟨0, 8⟩ }) (fun t => t.ph == .cka) = true := by
  decide

theorem witness_PhasesFollowTheFixedWalk :
    (walk 13 p6).map (fun c => c.1.code.toNat) ++ (walk 5 p6c).map (fun c => c.1.code.toNat) =
      [0, 1, 1, 2, 3, 4, 5, 6, 7, 8, 9, 10, 11, 13] ++ [0, 2, 12, 12, 12, 13] := by decide +kernel

theorem witness_AbandonedBuildLeavesAPrefix :
    ∃ (s : State) (w : CmdBeat) (cap nf : Word) (cls id : Byte) (poll : Bool) (F : List Field) (k : Nat) (t : State),
      s.mem.wf = true ∧ s.ph = .idle ∧ s.cmd = [w] ∧ decode (.cmd w) = .ok (.build cap nf cls id poll) ∧
      s.fld = F.map Field.beat ∧ F.length = nf.toNat ∧ payloadSize F ≤ 65535 ∧ seqRun k s = .next t := by
  have h : nextAnd (seqRun 7 p6) (fun t => t.ph == .idb) = true := by decide +kernel
  obtain ⟨t, h⟩ := exists_next h
  exact ⟨p6, 0x000000008000000480032, 9, 1, 0x06, 0x00, false, [(.u8, 1)], 7, t, by decide, by decide, by decide,
    by decide, by decide, by decide, by decide, h⟩

/-- Two instances, the first about to build the packet of P6, and the host's memory. -/
def two : System := ⟨[p6, State.reset], p6.mem⟩

theorem two_inv : two.Inv := by
  refine ⟨by decide, fun c hc => ?_⟩
  rcases List.mem_cons.1 hc with rfl | hc
  · exact p6_inv
  · rw [List.mem_singleton.1 hc]
    exact ⟨by decide, by decide, by decide, by decide, rfl⟩

theorem two_step : ∃ z, two.stepAt 0 = .next z := by
  obtain ⟨t, h⟩ := exists_next p6_step
  refine ⟨two.put 0 t, ?_⟩
  show (match step p6 with
    | .next t => Host.Outcome.next (two.put 0 t)
    | .fault r => .fault r
    | .refused r => .refused r) = _
  rw [h]

theorem witness_InstanceRunsAsOneCore : ∃ (y : System) (j : Nat) (c : State), y.cores[j]? = some c := ⟨two, 0, p6, rfl⟩

theorem witness_InstancesDoNotInterfere :
    (∃ (y z : System) (j : Nat), y.Inv ∧ y.stepAt j = .next z) ∧
    ∃ (y y' : System) (j : Nat), y ≠ y' ∧ y.cores[j]? = y'.cores[j]? ∧ y.mem = y'.mem :=
  have ⟨z, h⟩ := two_step
  ⟨⟨two, z, 0, two_inv, h⟩, two, ⟨[p6], p6.mem⟩, 0, by decide, rfl, rfl⟩

theorem witness_SystemActionsKeepInvariant : ∃ (y z : System) (a : SystemAction), y.Inv ∧ y.act a = .next z :=
  have ⟨z, h⟩ := two_step
  ⟨two, z, .step 0, two_inv, h⟩

/-- V-C23 on the second of two instances: the host stores the bytes, binds `SRC`, sends the command, and
receives from that instance alone. -/
theorem test_system_run :
    (match System.run [.host 1 (.write 8 6), .host 1 (.bindSrc ⟨8, 4⟩), .host 1 (.sendCmd 0x00000002000000027FFFD), .step 1]
        (System.reset 2) with
      | .next y => y.nextRsp 1 == some 0x0000000106018 && y.nextRsp 0 == none
      | .fault _ => false
      | .refused _ => false) = true := by decide +kernel

end Sys2Proof.Tests
end

section
/-! SUPPORT. The invariant is kept by every step of a core and by every action of the host on one; then by
every action of a system of cores over one memory. -/

namespace Sys2Proof.Machine

/-! ## The invariant in parts -/

/-- The part of the invariant that does not speak of the phase: memory canonical, staging in bounds. -/
def Bounded (s : State) : Prop := s.mem.wf = true ∧ Staged s

/-- Nothing is staged after reset (R22). -/
theorem staged_reset : Staged State.reset := ⟨by decide, by decide, by decide⟩

theorem inv_iff {s : State} : Inv s ↔ Bounded s ∧ PhaseLegal s := by
  simp only [Inv, Bounded, Staged, and_assoc]

/-- An idle core with no response pending is legal where it is bounded. -/
theorem inv_of_idle {s : State} (hb : Bounded s) (hp : s.ph = .idle) (hr : s.response = none) : Inv s :=
  inv_iff.2 ⟨hb, by simpa [PhaseLegal, hp] using hr⟩

/-- A core in `LOAD` inside a `BUILD` is legal where it is bounded. -/
theorem inv_of_load {s : State} (hb : Bounded s) (hp : s.ph = .load) (ho : s.op = .build)
    (hr : s.response = none) : Inv s :=
  inv_iff.2 ⟨hb, by simpa [PhaseLegal, hp] using ⟨ho, hr⟩⟩

theorem response_of_idle {s : State} (hs : Inv s) (hp : s.ph = .idle) : s.response = none := by
  simpa [PhaseLegal, hp] using (inv_iff.1 hs).2

theorem load_legal {s : State} (hs : Inv s) (hp : s.ph = .load) : s.op = .build ∧ s.response = none := by
  simpa [PhaseLegal, hp] using (inv_iff.1 hs).2

/-- While the framer walks, only the offset moves. -/
theorem Framing.advance {o : Nat} {s : State} (h : Framing o s) (off' : Word) (ph : Phase) :
    Framing off'.toNat { s with off := off', ph := ph } := by
  obtain ⟨ho, hr, hl, hc, -⟩ := h
  exact ⟨ho, hr, hl, hc, rfl⟩

/-! ## Steps of the sequencer -/

/-- A line of the walk that writes one byte leaves a legal state where offset and phase go together. -/
theorem seqWrite_keeps_inv {off : Nat} {b : Byte} {w : AccWord} {off' : Word} {ph : Phase} {s t : State}
    (hb : Bounded s) (h : seqWrite off b w off' ph s = .next t)
    (hl : PhaseLegal { s with off := off', ph := ph }) : Inv t := by
  obtain ⟨-, ht⟩ := seqWrite_inv h
  rw [ht]
  exact inv_iff.2 ⟨⟨Memory.wf_write hb.1 _ _, hb.2⟩, hl⟩

/-- `LOAD` with no beat left to take: `LEN` is set for `CHECK`. -/
theorem seqLoad_keeps_inv {s t : State} (hb : Bounded s) (ho : s.op = .build) (hr : s.response = none)
    (hz : s.nfr = 0) (h : seqLoad s = .next t) : Inv t := by
  rw [seqLoad_done hz] at h
  obtain ⟨u, hu, h⟩ := andThen_eq_next.1 h
  obtain ⟨-, rfl⟩ := determineLength_inv hu
  cases h
  exact inv_iff.2 ⟨hb, hr, .inr ⟨ho, hz, rfl⟩⟩

theorem seqCheck_keeps_inv {s t : State} (hb : Bounded s) (hr : s.response = none)
    (hl : (s.op = .cksum ∧ s.off = 0) ∨ (s.op = .build ∧ LengthSet s)) (h : seqCheck s = .next t) : Inv t := by
  obtain ⟨st, -, rfl, ho⟩ | ⟨ho, hc, rfl⟩ | ⟨ho, hc, rfl⟩ := seqCheck_inv h
  · exact inv_iff.2 ⟨hb, ho, rfl⟩
  · obtain ⟨-, hoff⟩ | ⟨hbuild, -⟩ := hl
    · exact inv_iff.2 ⟨hb, ho, hr, hc, by simp [hoff]⟩
    · exact absurd (ho.symm.trans hbuild) (by decide)
  · obtain ⟨hcksum, -⟩ | ⟨-, hlen⟩ := hl
    · exact absurd (ho.symm.trans hcksum) (by decide)
    · exact inv_iff.2 ⟨hb, ho, hr, hlen, hc, rfl⟩

/-- `LENHI` goes to the payload, or past it where there is none. -/
theorem seqLenHi_keeps_inv {b : Byte} {w : AccWord} {s t : State} (hb : Bounded s) (hf : Framing 5 s)
    (h : seqWrite 5 b w 6 (if s.len = 0 then .cka else .payload) s = .next t) : Inv t := by
  refine seqWrite_keeps_inv hb h ?_
  split
  · next hz =>
    have hlen : 6 + s.len.toNat = (6 : Word).toNat := by simp [hz]
    simpa only [PhaseLegal, hlen] using hf.advance 6 .cka
  · next hz =>
    have hpos : 0 < s.len.toNat := Nat.pos_of_ne_zero fun h0 => hz (BitVec.eq_of_toNat_eq h0)
    exact ⟨hf.advance 6 .payload, Nat.le_refl 6, Nat.lt_add_of_pos_right hpos⟩

/-- `PAYLOAD` moves one byte on, and leaves for `CKA` exactly behind the last byte. -/
theorem seqPayload_keeps_inv {s t : State} (hb : Bounded s) (hf : Framing s.off.toNat s)
    (hlt : s.off.toNat < 6 + s.len.toNat) (h : seqPayload s = .next t) : Inv t := by
  obtain ⟨h6, -, ht⟩ := seqPayload_inv h
  have hadv := hf.advance (s.off + 1) (if (s.off + 1).toNat = 6 + s.len.toNat then .cka else .payload)
  have hoff : (s.off + 1).toNat = s.off.toNat + 1 := by
    have := s.len.isLt
    exact BitVec.toNat_add_of_lt (by simp; omega)
  rw [ht]
  refine inv_iff.2 ⟨⟨Memory.wf_write hb.1 _ _, hb.2⟩, ?_⟩
  split at hadv
  · next he =>
    rw [if_pos he]
    rw [he] at hadv
    exact hadv
  · next he =>
    rw [if_neg he]
    exact ⟨hadv, show 6 ≤ (s.off + 1).toNat by omega, show (s.off + 1).toNat < 6 + s.len.toNat by omega⟩

/-- `CKA` leaves the offset of the last byte. -/
theorem seqCka_keeps_inv {b : Byte} {w : AccWord} {s t : State} (hb : Bounded s) (hf : Framing (6 + s.len.toNat) s)
    (h : seqWrite (6 + s.len.toNat) b w (BitVec.ofNat 32 (7 + s.len.toNat)) .ckb s = .next t) : Inv t := by
  have hoff : (BitVec.ofNat 32 (7 + s.len.toNat)).toNat = 7 + s.len.toNat := by
    have := s.len.isLt
    simp only [BitVec.toNat_ofNat]
    omega
  have hadv := hf.advance (BitVec.ofNat 32 (7 + s.len.toNat)) .ckb
  rw [hoff] at hadv
  exact seqWrite_keeps_inv hb h hadv

theorem seqCkb_keeps_inv {o : Nat} {s t : State} (hb : Bounded s) (hf : Framing o s)
    (h : seqCkb s = .next t) : Inv t := by
  obtain ⟨-, rfl⟩ := seqCkb_inv h
  obtain ⟨ho, -⟩ := hf
  exact inv_iff.2 ⟨⟨Memory.wf_write hb.1 _ _, hb.2⟩, by simp [ho], rfl⟩

theorem seqRange_keeps_inv {s t : State} (hs : Inv s) (hp : s.ph = .range) (h : seqRange s = .next t) : Inv t := by
  obtain ⟨hb, hl⟩ := inv_iff.1 hs
  simp only [PhaseLegal, hp] at hl
  obtain ⟨ho, hr, hc, -⟩ := hl
  obtain ⟨hlt, ht⟩ | ⟨-, ht⟩ := seqRange_inv h
  · have hoff : (s.off + 1).toNat = s.off.toNat + 1 := by
      have := s.cnt.isLt
      exact BitVec.toNat_add_of_lt (by simp; omega)
    have hle : (s.off + 1).toNat ≤ s.cnt.toNat := by omega
    rw [ht]
    exact inv_iff.2 ⟨hb, by simpa only [PhaseLegal, hp] using ⟨ho, hr, hc, hle⟩⟩
  · rw [ht]
    exact inv_iff.2 ⟨hb, by simp [ho], rfl⟩

/-- Inside an operation the reference sequencer keeps the invariant, phase by phase (R82, R101). -/
theorem seqStep_keeps_inv {s t : State} (hs : Inv s) (hi : s.ph ≠ .idle) (hz : s.ph = .load → s.nfr = 0)
    (h : seqStep s = .next t) : Inv t := by
  obtain ⟨hb, hl⟩ := inv_iff.1 hs
  unfold PhaseLegal at hl
  unfold seqStep at h
  cases hp : s.ph <;> simp only [hp] at hl h
  case idle => exact absurd hp hi
  case load =>
    obtain ⟨ho, hr⟩ := hl
    exact seqLoad_keeps_inv hb ho hr (hz hp) h
  case check =>
    obtain ⟨hr, hop⟩ := hl
    exact seqCheck_keeps_inv hb hr hop h
  case sync1 => exact seqWrite_keeps_inv hb h (hl.advance 1 .sync2)
  case sync2 => exact seqWrite_keeps_inv hb h (hl.advance 2 .cls)
  case cls => exact seqWrite_keeps_inv hb h (hl.advance 3 .idb)
  case idb => exact seqWrite_keeps_inv hb h (hl.advance 4 .lenLo)
  case lenLo => exact seqWrite_keeps_inv hb h (hl.advance 5 .lenHi)
  case lenHi => exact seqLenHi_keeps_inv hb hl h
  case payload =>
    obtain ⟨hf, -, hlt⟩ := hl
    exact seqPayload_keeps_inv hb hf hlt h
  case cka => exact seqCka_keeps_inv hb hl h
  case ckb => exact seqCkb_keeps_inv hb hl h
  case range => exact seqRange_keeps_inv hs hp h
  case resp =>
    obtain ⟨r, -, rfl⟩ := seqResp_inv h
    exact inv_of_idle hb rfl rfl

/-! ## Instructions, steps and host actions -/

/-- A word on the `ACC` input changes nothing the invariant speaks of. -/
theorem driveAcc_keeps_inv {s : State} (hs : Inv s) (w : AccWord) (a : Option AccWord) :
    Inv (driveAcc w { s with acc := a }) := by
  rw [driveAcc_eq]
  exact hs

/-- Both host operations, run from `IDLE`, leave a legal state. -/
theorem execCommand_keeps_inv {s t : State} (hb : Bounded s) (hr : s.response = none) (c : Command)
    (h : exec (Instr.ofCommand c) s = .next t) : Inv t := by
  cases c with
  | cksum length blen =>
    obtain ⟨r, ht⟩ := execCksum_inv h
    rw [ht]
    exact inv_of_idle hb rfl rfl
  | build cap nf cls id poll =>
    obtain ⟨-, ho, -, -, -, -, hst, hcase⟩ := execBuild_inv h
    have ⟨_, _, _, hpbuf⟩ := hb
    have hstaged : Staged t := hst hpbuf
    obtain ⟨hp, -, -, -, hm, hr'⟩ | ⟨hp, hr', r, bs, -, hm, -⟩ := hcase
    · exact inv_of_load ⟨hm ▸ hb.1, hstaged⟩ hp ho (hr'.trans hr)
    · exact inv_of_idle ⟨hm ▸ storeBytes_wf hb.1 _ _, hstaged⟩ hp hr'

/-- Every step of a core keeps the invariant. -/
theorem step_keeps_inv {s t : State} (hs : Inv s) (h : step s = .next t) : Inv t := by
  obtain ⟨hb, -⟩ := inv_iff.1 hs
  obtain ⟨w, -, e⟩ | ⟨-, e, -⟩ | ⟨-, hp, w, ws, c, -, -, e⟩ | ⟨-, hp, -, w, ws, f, -, -, e⟩ | ⟨r, e⟩ |
    ⟨-, hi, hz, e⟩ := step_cases s <;> rw [e] at h
  · cases h
    exact driveAcc_keeps_inv hs w none
  · cases h
    exact hs
  · exact execCommand_keeps_inv (s := { s with cmd := ws }) hb (response_of_idle hs hp) c h
  · obtain ⟨ht, -, hst⟩ := stage_inv h
    obtain ⟨ho, hr⟩ := load_legal hs hp
    have hstaged : Staged t := hst hb.2
    rw [ht] at hstaged ⊢
    exact inv_of_load ⟨hb.1, hstaged⟩ hp ho hr
  · cases h
  · exact seqStep_keeps_inv hs hi hz h

/-- Every action of the host on a core keeps the invariant. -/
theorem hostAct_keeps_inv {s : State} (hs : Inv s) (a : HostAction) : Inv (hostAct a s) := by
  cases a with
  | sendCmd | sendFld | bindSrc | bindDst => exact hs
  | recvRsp =>
    show Inv (recvRsp s).2
    unfold recvRsp
    split <;> exact hs
  | write a b => exact ⟨Memory.wf_write hs.1 a b, hs.2⟩
  | rst => exact inv_of_idle ⟨hs.1, staged_reset⟩ rfl rfl

/-! ## Systems -/

/-- A step of one core keeps the invariant of the whole system. -/
theorem System.stepAt_keeps_inv {y z : System} {j : Nat} (hy : y.Inv) (h : y.stepAt j = .next z) : z.Inv := by
  cases hc : y.cores[j]? with
  | none =>
    rw [System.stepAt_none hc] at h
    cases h
    exact hy
  | some c =>
    rw [System.stepAt_some hc] at h
    split at h <;> cases h
    next t ht => exact System.put_inv hy (step_keeps_inv (System.view_inv hy hc) ht)

/-- An action of the host on one core keeps the invariant of the whole system. -/
theorem System.hostActAt_keeps_inv {y : System} (hy : y.Inv) (j : Nat) (a : HostAction) : (y.hostActAt j a).Inv := by
  cases hc : y.cores[j]? with
  | none => rwa [System.hostActAt_none hc]
  | some c =>
    rw [System.hostActAt_some hc]
    exact System.put_inv hy (hostAct_keeps_inv (System.view_inv hy hc) a)

/-- What is placed in a system is there again, over the memory it was placed with. -/
theorem System.put_view (y : System) (j : Nat) (t : State) : (y.put j t).view { t with mem := [] } = t := rfl

/-- The host receives the oldest response on the core's own `RSP`. -/
theorem System.nextRsp_some {y : System} {j : Nat} {c : State} (h : y.cores[j]? = some c) :
    y.nextRsp j = c.rsp.head? := by
  simp only [System.nextRsp, h, recvRsp]
  cases c.rsp <;> rfl

/-- Each core of a fresh system is the reset state, but for its free value. -/
theorem System.mem_reset_cores {n : Nat} {c : State} :
    c ∈ (System.reset n).cores ↔ ∃ i < n, { State.reset with seed := i } = c := by
  simp [System.reset]

/-- The reset state is legal and has ended, whatever free value it is given (R22, R155). -/
theorem reset_inv_ended (i : Nat) : Inv { State.reset with seed := i } ∧ Ended { State.reset with seed := i } :=
  ⟨inv_of_idle ⟨rfl, staged_reset⟩ rfl rfl, rfl, rfl⟩

end Sys2Proof.Machine
end

section
/-! PROOFS. The statements about a system of cores. -/

namespace Sys2Proof.Proofs
open Sys2Proof Sys2Proof.Machine

/-- Settles O55, by the kind of action: the core's own invariant lemmas over the common memory. -/
theorem systemActionsKeepInvariant : Obligations.SystemActionsKeepInvariant := by
  intro y z a hy h
  cases a with
  | step j => exact System.stepAt_keeps_inv hy h
  | host j a =>
    cases h
    exact System.hostActAt_keeps_inv hy j a

/-- Settles O52, by the outcome of the single core's step. -/
theorem instanceRunsAsOneCore : Obligations.InstanceRunsAsOneCore := by
  intro y j c hc
  refine ⟨fun t ht => ?_, fun r => ?_, fun r => ?_, System.hostActAt_some hc, System.nextRsp_some hc,
    fun t => ⟨_, System.put_same y t (List.getElem?_eq_some_iff.1 hc).1, System.put_view y j t⟩⟩
  · rw [System.stepAt_some hc, ht]
  all_goals
    rw [System.stepAt_some hc]
    cases step (y.view c) <;> simp

/-- Settles O54: each core is the reset state under a free value of its own. -/
theorem systemResetMeetsInvariant : Obligations.SystemResetMeetsInvariant := by
  refine fun n => ⟨⟨rfl, fun c hc => ?_⟩, by simp [System.reset], fun c hc => ?_⟩ <;>
    obtain ⟨i, -, rfl⟩ := System.mem_reset_cores.1 hc
  · exact (reset_inv_ended i).1
  · exact (reset_inv_ended i).2

end Sys2Proof.Proofs
end

section
/-! SUPPORT. Where the sequencer leaves its walk and faults, what `IDLE` and `LOAD` can do, and the phase
that a line of the walk leads to. -/

namespace Sys2Proof.Machine

/-! ## Faults of the sequencer -/

theorem writeDst_no_fault (off : Nat) (b : Byte) (s : State) (r : Fault) : writeDst off b s ≠ .fault r := by
  unfold writeDst
  split <;> simp

theorem seqWrite_no_fault (off : Nat) (b : Byte) (w : AccWord) (off' : Word) (ph : Phase) (s : State) (r : Fault) :
    seqWrite off b w off' ph s ≠ .fault r := by
  intro h
  obtain h | ⟨u, -, h⟩ := andThen_eq_fault.1 h
  · exact writeDst_no_fault _ _ _ _ h
  · cases h

theorem seqCommand_no_fault (c : Command) (s : State) (r : Fault) : seqCommand c s ≠ .fault r := by
  cases c <;> simp [seqCommand]

theorem seqIdle_no_fault (s : State) (r : Fault) : seqIdle s ≠ .fault r := by
  unfold seqIdle
  split
  · simp
  · split
    · exact seqCommand_no_fault _ _ _
    · simp

theorem seqLoad_no_fault (s : State) (r : Fault) : seqLoad s ≠ .fault r := by
  by_cases hz : s.nfr = 0
  · rw [seqLoad_done hz]
    intro h
    obtain h | ⟨u, -, h⟩ := andThen_eq_fault.1 h
    · exact determineLength_no_fault _ _ h
    · cases h
  · rw [seqLoad, if_neg hz]
    split
    · simp
    · exact takeBeat_no_fault _ _ _

theorem seqCheck_fault_inv {s : State} {r : Fault} (h : seqCheck s = .fault r) : s.op = .none := by
  unfold seqCheck at h
  split at h
  · split at h <;> cases h
  · split at h <;> cases h
  · assumption

theorem seqPayload_fault_inv {s : State} {r : Fault} (h : seqPayload s = .fault r) : s.off.toNat < 6 := by
  unfold seqPayload at h
  split at h
  · assumption
  · exact absurd h (seqWrite_no_fault _ _ _ _ _ _ _)

theorem seqRange_no_fault (s : State) (r : Fault) : seqRange s ≠ .fault r := by
  unfold seqRange
  split
  · split <;> simp
  · simp

theorem seqCkb_no_fault (s : State) (r : Fault) : seqCkb s ≠ .fault r := by
  intro h
  obtain h | ⟨u, -, h⟩ := andThen_eq_fault.1 h
  · exact seqWrite_no_fault _ _ _ _ _ _ _ h
  · cases h

theorem seqResp_fault_inv {s : State} {r : Fault} (h : seqResp s = .fault r) : s.response = none := by
  unfold seqResp at h
  split at h
  · cases h
  · assumption

/-- The three register contents in which the sequencer faults, and no others (log 11). -/
theorem seqStep_fault_inv {s : State} {r : Fault} (h : seqStep s = .fault r) :
    (s.ph = .check ∧ s.op = .none) ∨ (s.ph = .payload ∧ s.off.toNat < 6) ∨ (s.ph = .resp ∧ s.response = none) := by
  unfold seqStep at h
  cases hp : s.ph <;> simp only [hp] at h
  case idle => exact absurd h (seqIdle_no_fault _ _)
  case load => exact absurd h (seqLoad_no_fault _ _)
  case check => exact .inl ⟨rfl, seqCheck_fault_inv h⟩
  case payload => exact .inr (.inl ⟨rfl, seqPayload_fault_inv h⟩)
  case ckb => exact absurd h (seqCkb_no_fault _ _)
  case range => exact absurd h (seqRange_no_fault _ _)
  case resp => exact .inr (.inr ⟨rfl, seqResp_fault_inv h⟩)
  case sync1 | sync2 | cls | idb | lenLo | lenHi | cka => exact absurd h (seqWrite_no_fault _ _ _ _ _ _ _)

/-- A step faults only where the sequencer does. -/
theorem seqStep_fault_of_step {s : State} {r : Fault} (h : step s = .fault r) : seqStep s = .fault r := by
  obtain ⟨w, -, e⟩ | ⟨-, e, -⟩ | ⟨-, -, w, ws, c, -, -, e⟩ | ⟨-, -, -, w, ws, f, -, -, e⟩ | ⟨d, e⟩ | ⟨-, -, -, e⟩ :=
    step_cases s <;> rw [e] at h
  · cases h
  · cases h
  · exact absurd h (exec_no_fault _ _ _)
  · exact absurd h (stage_no_fault _ _ _)
  · cases h
  · exact h

/-- A legal state is on the walk: none of the contents in which the sequencer faults. -/
theorem seqStep_no_fault {s : State} (hs : Inv s) (r : Fault) : seqStep s ≠ .fault r := by
  obtain ⟨-, hl⟩ := inv_iff.1 hs
  unfold PhaseLegal at hl
  intro h
  obtain ⟨hp, ho⟩ | ⟨hp, hlt⟩ | ⟨hp, hr⟩ := seqStep_fault_inv h <;> rw [hp] at hl
  · simp [ho] at hl
  · obtain ⟨-, h6, -⟩ := hl
    omega
  · simp [hr] at hl

/-! ## `IDLE` and `LOAD` -/

/-- Everything the intake of a command can do to phase and operation. -/
theorem seqCommand_inv {c : Command} {s t : State} (h : seqCommand c s = .next t) :
    (t.op = .build ∧ t.ph = .load) ∨ (t.op = .cksum ∧ t.ph = .check) := by
  cases c <;> cases h
  · exact .inr ⟨rfl, rfl⟩
  · exact .inl ⟨rfl, rfl⟩

/-- Everything `IDLE` can do: wait, or take in the oldest command. -/
theorem seqIdle_inv {s t : State} (h : seqIdle s = .next t) :
    (s.cmd = [] ∧ t = s) ∨
    ∃ w ws c, s.cmd = w :: ws ∧ decodeCmd w = .ok c ∧ seqCommand c { s with cmd := ws } = .next t := by
  unfold seqIdle at h
  split at h
  · next hc =>
    cases h
    exact .inl ⟨hc, rfl⟩
  · next w ws hc =>
    split at h
    · next c hd => exact .inr ⟨w, ws, c, hc, hd, h⟩
    · cases h

/-- Everything `LOAD` can do: set `LEN` once no beat is left to take, or wait, or take one beat. -/
theorem seqLoad_inv {s t : State} (h : seqLoad s = .next t) :
    (s.nfr = 0 ∧ t = { s with len := lengthField s.poll s.plen.toNat, ph := .check }) ∨
    (s.nfr ≠ 0 ∧ t = { s with nfr := t.nfr, pbuf := t.pbuf, plen := t.plen, fld := t.fld }) := by
  by_cases hz : s.nfr = 0
  · rw [seqLoad_done hz] at h
    obtain ⟨u, hu, h⟩ := andThen_eq_next.1 h
    obtain ⟨-, rfl⟩ := determineLength_inv hu
    cases h
    exact .inl ⟨hz, rfl⟩
  · rw [seqLoad, if_neg hz] at h
    refine .inr ⟨hz, ?_⟩
    split at h
    · cases h
      rfl
    · obtain ⟨ht, -⟩ := takeBeat_inv h
      rw [ht]

/-! ## The phase each step leads to -/

/-- A line of the walk that writes one byte leads to the phase it names. -/
theorem seqWrite_ph {off : Nat} {b : Byte} {w : AccWord} {off' : Word} {ph : Phase} {s t : State}
    (h : seqWrite off b w off' ph s = .next t) : t.ph = ph := by
  obtain ⟨-, ht⟩ := seqWrite_inv h
  rw [ht]

theorem seqIdle_ph {s t : State} (hp : s.ph = .idle) (h : seqIdle s = .next t) :
    (s.cmd = [] ∧ t.ph = .idle) ∨ (t.op = .build ∧ t.ph = .load) ∨ (t.op = .cksum ∧ t.ph = .check) := by
  obtain ⟨hc, rfl⟩ | ⟨w, ws, c, -, -, h⟩ := seqIdle_inv h
  · exact .inl ⟨hc, hp⟩
  · exact .inr (seqCommand_inv h)

theorem seqLoad_ph {s t : State} (hp : s.ph = .load) (h : seqLoad s = .next t) :
    if s.nfr = 0 then t.ph = .check else t.ph = .load := by
  obtain ⟨hz, ht⟩ | ⟨hz, ht⟩ := seqLoad_inv h
  · rw [if_pos hz, ht]
  · rw [if_neg hz, ht, hp]

theorem seqCheck_ph {s t : State} (h : seqCheck s = .next t) :
    t.ph = .resp ∨ (s.op = .build ∧ t.ph = .sync1) ∨ (s.op = .cksum ∧ t.ph = .range) := by
  obtain ⟨st, -, rfl, -⟩ | ⟨ho, -, rfl⟩ | ⟨ho, -, rfl⟩ := seqCheck_inv h
  · exact .inl rfl
  · exact .inr (.inr ⟨ho, rfl⟩)
  · exact .inr (.inl ⟨ho, rfl⟩)

theorem seqLenHi_ph {b : Byte} {w : AccWord} {s t : State}
    (h : seqWrite 5 b w 6 (if s.len = 0 then .cka else .payload) s = .next t) :
    if s.len = 0 then t.ph = .cka else t.ph = .payload := by
  rw [seqWrite_ph h]
  split <;> rfl

theorem seqPayload_ph {s t : State} (h : seqPayload s = .next t) :
    if t.off.toNat = 6 + s.len.toNat then t.ph = .cka else t.ph = .payload := by
  obtain ⟨-, -, ht⟩ := seqPayload_inv h
  rw [ht]
  dsimp only
  split <;> rfl

theorem seqRange_ph {s t : State} (hp : s.ph = .range) (h : seqRange s = .next t) :
    if s.off.toNat < s.cnt.toNat then t.ph = .range else t.ph = .resp := by
  obtain ⟨hlt, ht⟩ | ⟨hge, ht⟩ := seqRange_inv h
  · rw [if_pos hlt, ht, hp]
  · rw [if_neg (Nat.not_lt.2 hge), ht]

end Sys2Proof.Machine
end

section
/-! PROOFS. The statements about the state of one core: reset, codes, the invariant, and the walk of phases. -/

namespace Sys2Proof.Proofs
open Sys2Proof Sys2Proof.Machine

/-- Settles O40, by the cases of a step. -/
theorem stepKeepsInvariant : Obligations.StepKeepsInvariant := fun _ _ => step_keeps_inv

/-- Settles O42: only the sequencer faults, and on the walk it does not. -/
theorem noStepFaults : Obligations.NoStepFaults :=
  fun _ hs r h => seqStep_no_fault hs r (seqStep_fault_of_step h)

/-- Settles O50, phase by phase. -/
theorem phasesFollowTheFixedWalk : Obligations.PhasesFollowTheFixedWalk := by
  intro s t h
  unfold seqStep at h
  cases hp : s.ph <;> simp only [hp] at h ⊢
  case idle => exact seqIdle_ph hp h
  case load => exact seqLoad_ph hp h
  case check => exact seqCheck_ph h
  case lenHi => exact seqLenHi_ph h
  case payload => exact seqPayload_ph h
  case ckb =>
    obtain ⟨-, rfl⟩ := seqCkb_inv h
    rfl
  case range => exact seqRange_ph hp h
  case resp =>
    obtain ⟨r, -, rfl⟩ := seqResp_inv h
    rfl
  case sync1 | sync2 | cls | idb | lenLo | cka => exact seqWrite_ph h

/-- Settles O39: the reset state is idle, with nothing staged and no response pending. -/
theorem resetStateMeetsInvariant : Obligations.ResetStateMeetsInvariant :=
  inv_of_idle ⟨rfl, staged_reset⟩ rfl rfl

/-- Settles O45: the registers by their reset values, `PBUF` because nothing has been staged. -/
theorem resetValues : Obligations.ResetValues := by
  refine ⟨rfl, rfl, rfl, rfl, rfl, rfl, rfl, rfl, rfl, rfl, rfl, rfl, rfl, rfl, rfl, rfl, rfl, fun k => ?_⟩
  exact List.getD_nil

/-- Settles O56, by the tables of codes. -/
theorem phaseOpAndStatusCodes : Obligations.PhaseOpAndStatusCodes := ⟨rfl, rfl, rfl⟩

end Sys2Proof.Proofs
end

section
/-! SUPPORT. What a step of a core may store: one run of bytes inside the destination and its capacity. And
what a packet's walk has stored when it is stopped. -/

namespace Sys2Proof.Machine

/-! ## The bytes a step stores -/

/-- From `s` to `t` no port is bound anew, and what memory differs by is one run of bytes stored inside the
first `n` bytes of the buffer bound to `DST` (R38). -/
def StoresWithin (n : Nat) (s t : State) : Prop :=
  t.src = s.src ∧ t.dst = s.dst ∧
    ∃ o bs, o + bs.length ≤ n ∧ t.mem = storeBytes s.mem (s.dst.base + o) bs

/-- A step that leaves memory alone stores the empty run. -/
theorem storesWithin_of_mem_eq {s t : State} (hsrc : t.src = s.src) (hdst : t.dst = s.dst) (hm : t.mem = s.mem)
    (n : Nat) : StoresWithin n s t :=
  ⟨hsrc, hdst, 0, [], Nat.zero_le n, hm⟩

/-- Nothing outside those `n` bytes reads differently. -/
theorem StoresWithin.read_outside {n a : Nat} {s t : State} (h : StoresWithin n s t) (hw : s.mem.wf = true)
    (ha : a < s.dst.base ∨ s.dst.base + n ≤ a) : t.mem.read a = s.mem.read a := by
  obtain ⟨-, -, o, bs, hle, hm⟩ := h
  rw [hm, storeBytes_read hw, if_neg (by omega)]

/-- A byte the framer writes, at an offset inside its packet, lies within the capacity it has checked (R88). -/
theorem Framing.storesWithin {o o' : Nat} {b : Byte} {s t : State} (hf : Framing o s) (ho : o' < 8 + s.len.toNat)
    (hd : o' < s.dst.size) (ht : t.mem = s.mem.write (s.dst.base + o') b) (hsrc : t.src = s.src)
    (hdst : t.dst = s.dst) (hcap : t.cap = s.cap) : StoresWithin (min s.dst.size t.cap.toNat) s t := by
  obtain ⟨-, -, -, hc, -⟩ := hf
  have hcap' := bufferTooSmall_eq_false.1 hc
  refine ⟨hsrc, hdst, o', [b], ?_, ht⟩
  rw [hcap, List.length_singleton]
  omega

theorem seqWrite_storesWithin {o off : Nat} {b : Byte} {w : AccWord} {off' : Word} {ph : Phase} {s t : State}
    (hf : Framing o s) (ho : off < 8 + s.len.toNat) (h : seqWrite off b w off' ph s = .next t) :
    StoresWithin (min s.dst.size t.cap.toNat) s t := by
  obtain ⟨hd, ht⟩ := seqWrite_inv h
  rw [ht]
  exact hf.storesWithin ho hd rfl rfl rfl rfl

/-- Inside an operation the reference sequencer stores at most the byte of its phase. -/
theorem seqStep_storesWithin {s t : State} (hs : Inv s) (hi : s.ph ≠ .idle) (h : seqStep s = .next t) :
    StoresWithin (min s.dst.size t.cap.toNat) s t := by
  obtain ⟨-, hl⟩ := inv_iff.1 hs
  unfold PhaseLegal at hl
  unfold seqStep at h
  cases hp : s.ph <;> simp only [hp] at hl h
  case idle => exact absurd hp hi
  case load =>
    obtain ⟨-, ht⟩ | ⟨-, ht⟩ := seqLoad_inv h
    all_goals
      rw [ht]
      exact storesWithin_of_mem_eq rfl rfl rfl _
  case check =>
    obtain ⟨st, -, rfl, -⟩ | ⟨-, -, rfl⟩ | ⟨-, -, rfl⟩ := seqCheck_inv h <;>
      exact storesWithin_of_mem_eq rfl rfl rfl _
  case sync1 | sync2 | cls | idb | lenLo | lenHi | cka => exact seqWrite_storesWithin hl (by omega) h
  case payload =>
    obtain ⟨hf, -, hlt⟩ := hl
    obtain ⟨-, hd, ht⟩ := seqPayload_inv h
    rw [ht]
    exact hf.storesWithin (by omega) hd rfl rfl rfl rfl
  case ckb =>
    obtain ⟨hd, ht⟩ := seqCkb_inv h
    rw [ht]
    exact hl.storesWithin (by omega) hd rfl rfl rfl rfl
  case range =>
    obtain ⟨-, ht⟩ | ⟨-, ht⟩ := seqRange_inv h
    all_goals
      rw [ht]
      exact storesWithin_of_mem_eq rfl rfl rfl _
  case resp =>
    obtain ⟨r, -, rfl⟩ := seqResp_inv h
    exact storesWithin_of_mem_eq rfl rfl rfl _

/-- A `CKSUM` stores nothing; a `BUILD` nothing or its packet, from offset 0 up. -/
theorem execCommand_storesWithin {s t : State} (c : Command) (h : exec (Instr.ofCommand c) s = .next t) :
    StoresWithin (min s.dst.size t.cap.toNat) s t := by
  cases c with
  | cksum length blen =>
    obtain ⟨r, ht⟩ := execCksum_inv h
    rw [ht]
    exact storesWithin_of_mem_eq rfl rfl rfl _
  | build cap nf cls id poll =>
    obtain ⟨hcap, -, -, -, hsrc, hdst, -, hcase⟩ := execBuild_inv h
    obtain ⟨-, -, -, -, hm, -⟩ | ⟨-, -, r, bs, -, hm, hlen⟩ := hcase
    · exact storesWithin_of_mem_eq hsrc hdst hm _
    · exact ⟨hsrc, hdst, 0, bs, by rw [hcap]; omega, hm⟩

/-- Every step of a legal core stores inside its destination and its capacity. -/
theorem step_storesWithin {s t : State} (hs : Inv s) (h : step s = .next t) :
    StoresWithin (min s.dst.size t.cap.toNat) s t := by
  obtain ⟨w, -, e⟩ | ⟨-, e, -⟩ | ⟨-, -, w, ws, c, -, -, e⟩ | ⟨-, -, -, w, ws, f, -, -, e⟩ | ⟨r, e⟩ | ⟨-, hi, -, e⟩ :=
    step_cases s <;> rw [e] at h
  · cases h
    rw [driveAcc_eq]
    exact storesWithin_of_mem_eq rfl rfl rfl _
  · cases h
    exact storesWithin_of_mem_eq rfl rfl rfl _
  · exact execCommand_storesWithin (s := { s with cmd := ws }) c h
  · obtain ⟨ht, -, -⟩ := stage_inv h
    rw [ht]
    exact storesWithin_of_mem_eq rfl rfl rfl _
  · cases h
  · exact seqStep_storesWithin hs hi h

/-! ## Systems -/

/-- Of the host's actions only a store touches memory. -/
theorem hostAct_mem {a : HostAction} (h : ∀ x b, a ≠ .write x b) (s : State) : (hostAct a s).mem = s.mem := by
  cases a with
  | write x b => exact absurd rfl (h x b)
  | recvRsp =>
    show (recvRsp s).2.mem = s.mem
    unfold recvRsp
    split <;> rfl
  | sendCmd | sendFld | bindSrc | bindDst | rst => rfl

/-- Everything a step of core `j` can do where it answers a next system: nothing where no core stands
there, else what the one core does over the common memory. -/
theorem System.stepAt_inv {y z : System} {j : Nat} (h : y.stepAt j = .next z) :
    (y.cores[j]? = none ∧ z = y) ∨ ∃ c t, y.cores[j]? = some c ∧ step (y.view c) = .next t ∧ z = y.put j t := by
  cases hc : y.cores[j]? with
  | none =>
    rw [System.stepAt_none hc] at h
    cases h
    exact .inl ⟨rfl, rfl⟩
  | some c =>
    rw [System.stepAt_some hc] at h
    split at h <;> cases h
    next t ht => exact .inr ⟨c, t, rfl, ht, rfl⟩

/-- A step of one core leaves every other core, and memory outside its own destination, as they were. -/
theorem System.stepAt_frame {y z : System} {j : Nat} (hy : y.Inv) (h : y.stepAt j = .next z) :
    (∀ i, i ≠ j → z.cores[i]? = y.cores[i]?) ∧ z.cores.length = y.cores.length ∧
    ∀ (c : State) (a : Nat), y.cores[j]? = some c → (a < c.dst.base ∨ c.dst.base + c.dst.size ≤ a) →
      z.mem.read a = y.mem.read a := by
  obtain ⟨-, rfl⟩ | ⟨c, t, hc, ht, rfl⟩ := System.stepAt_inv h
  · exact ⟨fun _ _ => rfl, rfl, fun _ _ _ _ => rfl⟩
  · refine ⟨fun i hi => System.put_other y t hi, System.put_length y j t, fun d a hd ha => ?_⟩
    obtain rfl : c = d := Option.some.inj (hc.symm.trans hd)
    have hst := step_storesWithin (System.view_inv hy hc) ht
    have hbase : (y.view c).dst = c.dst := rfl
    exact hst.read_outside hy.1 (by rw [hbase]; omega)

/-- Systems that agree in one core and in memory: the step of that core is the same. -/
theorem System.stepAt_congr {y y' : System} {j : Nat} (hc : y.cores[j]? = y'.cores[j]?) (hm : y.mem = y'.mem) :
    (∀ z, y.stepAt j = .next z →
      ∃ z', y'.stepAt j = .next z' ∧ z'.cores[j]? = z.cores[j]? ∧ z'.mem = z.mem) ∧
    (∀ r, y.stepAt j = .fault r → y'.stepAt j = .fault r) ∧
    ∀ r, y.stepAt j = .refused r → y'.stepAt j = .refused r := by
  cases hj : y.cores[j]? with
  | none =>
    rw [System.stepAt_none hj, System.stepAt_none (hc.symm.trans hj)]
    refine ⟨fun z hz => ?_, by simp, by simp⟩
    cases hz
    exact ⟨y', rfl, hc.symm, hm.symm⟩
  | some c =>
    have hj' := hc.symm.trans hj
    have hv : y'.view c = y.view c := by rw [System.view, System.view, hm]
    rw [System.stepAt_some hj, System.stepAt_some hj', hv]
    cases step (y.view c) with
    | next t =>
      refine ⟨fun z hz => ?_, by simp, by simp⟩
      cases hz
      refine ⟨_, rfl, ?_, rfl⟩
      rw [System.put_same y t (List.getElem?_eq_some_iff.1 hj).1, System.put_same y' t (List.getElem?_eq_some_iff.1 hj').1]
    | fault r | refused r => simp

/-- An action of the host on one core leaves every other as it was, and memory unless it is a store. -/
theorem System.hostActAt_frame (y : System) (j : Nat) (a : HostAction) :
    (∀ i, i ≠ j → (y.hostActAt j a).cores[i]? = y.cores[i]?) ∧
    ((∀ x b, a ≠ .write x b) → (y.hostActAt j a).mem = y.mem) := by
  cases hc : y.cores[j]? with
  | none =>
    rw [System.hostActAt_none hc]
    exact ⟨fun _ _ => rfl, fun _ => rfl⟩
  | some c =>
    rw [System.hostActAt_some hc]
    exact ⟨fun i hi => System.put_other y _ hi, fun h => hostAct_mem h _⟩

/-! ## A BUILD on its way

The state `u` below is that of a `BUILD` past intake and length determination; the points of its run are told
by what stands in `DST` of the packet `pktOf u`. -/

/-- What every step keeps holds after any number of steps. -/
theorem iterate_keeps {f : State → Result} {P : State → Prop} (hf : ∀ x y, P x → f x = .next y → P y)
    {k : Nat} {s t : State} (hs : P s) (h : iterate f k s = .next t) : P t := by
  induction k generalizing s with
  | zero =>
    cases h
    exact hs
  | succ k ih =>
    obtain ⟨x, hx, h⟩ := andThen_eq_next.1 h
    exact ih (hf s x hs hx) h

/-- Memory differs from that of `u` by the first `j` bytes of the packet, at `DST`. -/
def WrotePrefix (u t : State) : Prop :=
  ∃ j, j ≤ 8 + u.len.toNat ∧ t.mem = storeBytes u.mem u.dst.base ((pktOf u).take j)

theorem wrotePrefix_none {u t : State} (h : t.mem = u.mem) : WrotePrefix u t :=
  ⟨0, Nat.zero_le _, h⟩

/-- The points of the run of a `BUILD` that intake leaves in `v` and length determination in `u`: taking
beats, about to check the capacity, writing the packet, and over. -/
inductive BuildPoint (v u : State) : State → Prop
  | load (t : State) (hp : t.ph = .load) (hi : intake t.fld t = .next v) : BuildPoint v u t
  | check : BuildPoint v u { u with ph := .check }
  | frame (o : Nat) (h : o ≤ 7 + u.len.toNat) : BuildPoint v u (frame u o)
  | ended (t : State) (hp : t.ph = .resp ∨ t.ph = .idle) (hc : t.cmd = []) (hm : WrotePrefix u t) : BuildPoint v u t

section
variable {v u : State} (hu : determineLength v = .next u) (hz : v.nfr = 0) (ho : u.op = .build) (hc : u.cmd = [])
include hu

/-- At every point the first bytes of the packet, and no others, have been written. -/
theorem BuildPoint.wrotePrefix {t : State} (h : BuildPoint v u t) : WrotePrefix u t := by
  cases h with
  | load _ hp hi =>
    obtain ⟨hv, -⟩ := intake_inv hi
    obtain ⟨-, hu'⟩ := determineLength_inv hu
    exact wrotePrefix_none (by rw [hu', hv])
  | check => exact wrotePrefix_none rfl
  | frame o h => exact ⟨o, by omega, rfl⟩
  | ended _ _ _ hm => exact hm

include hz

/-- `LOAD` takes the next beat, or goes on to `CHECK` when intake is over. -/
theorem buildPoint_of_load {t t' : State} (hp : t.ph = .load) (hi : intake t.fld t = .next v)
    (h : seqLoad t = .next t') : BuildPoint v u t' := by
  by_cases hn : t.nfr = 0
  · rw [intake_done _ _ hn] at hi
    cases hi
    rw [seqLoad_done hn, hu] at h
    cases h
    exact .check
  · rw [seqLoad, if_neg hn] at h
    cases hw : t.fld with
    | nil =>
      rw [hw] at hi
      cases hi
      exact absurd hz hn
    | cons w ws =>
      simp only [hw] at h hi
      rw [takeBeat_fld] at h
      obtain ⟨x, hx, h⟩ := andThen_eq_next.1 h
      obtain ⟨hx', -⟩ := takeBeat_inv hx
      rw [intake, if_neg hn, hx, andThen_next] at hi
      cases h
      exact .load _ ((congrArg State.ph hx').trans hp) ((intake_fld ws x ws).trans hi)

include ho hc

/-- A step of the sequencer goes from one point of the run to another. -/
theorem buildPoint_seqStep {t t' : State} (hb : BuildPoint v u t) (h : seqStep t = .next t') : BuildPoint v u t' := by
  cases hb with
  | load _ hp hi =>
    simp only [seqStep, hp] at h
    exact buildPoint_of_load hu hz hp hi h
  | check =>
    obtain ⟨st, -, rfl, -⟩ | ⟨hk, -, -⟩ | ⟨-, -, rfl⟩ := seqCheck_inv h
    · exact .ended _ (.inl rfl) hc (wrotePrefix_none rfl)
    · exact absurd (hk.symm.trans ho) (by decide)
    · exact .frame 0 (Nat.zero_le _)
  | frame o hle =>
    by_cases hlt : o < 7 + u.len.toNat
    · rw [seqStep_frame u o hlt] at h
      split at h <;> cases h
      exact .frame (o + 1) hlt
    · obtain rfl : o = 7 + u.len.toNat := by omega
      rw [seqStep_frame_last] at h
      split at h <;> cases h
      refine .ended _ (.inl rfl) hc ⟨8 + u.len.toNat, Nat.le_refl _, ?_⟩
      rw [List.take_of_length_le (by simp)]
  | ended _ hp hc' hm =>
    obtain hp | hp := hp <;> simp only [seqStep, hp] at h
    · obtain ⟨r, -, rfl⟩ := seqResp_inv h
      exact .ended _ (.inr rfl) hc' hm
    · obtain ⟨-, rfl⟩ | ⟨w, ws, c, hw, -⟩ := seqIdle_inv h
      · exact .ended _ (.inr hp) hc' hm
      · exact absurd (hc'.symm.trans hw) (by simp)

end

/-- A beat that decodes to the instruction of a command decodes to that command. -/
theorem decodeCmd_of_decode {w : CmdBeat} {c : Command} (h : decode (.cmd w) = .ok (Instr.ofCommand c)) :
    decodeCmd w = .ok c := by
  cases hd : decodeCmd w with
  | error e => simp [decode, hd, Except.map] at h
  | ok d =>
    have he : Instr.ofCommand d = Instr.ofCommand c := by simpa [decode, hd, Except.map] using h
    cases d <;> cases c <;> cases he <;> rfl

/-- The packet a `BUILD` is to write once its fields are staged and its length is determined. -/
theorem pktOf_stagedBuild {s : State} {cap : Word} {cls id : Byte} {poll : Bool} {F : List Field} {rest : List FldBeat}
    {pb : List Byte} (hp : payloadSize F ≤ 65535)
    (hpb : pbufBytes (payloadSize F) (stagedBuild s cap cls id poll F rest pb) = serAll F) :
    pktOf { stagedBuild s cap cls id poll F rest pb with len := lengthField poll (payloadSize F) } =
      packetOf cls id poll F := by
  have hb : pbufBytes (lengthField poll (payloadSize F)).toNat
      { stagedBuild s cap cls id poll F rest pb with len := lengthField poll (payloadSize F) } =
      writtenPayload poll F := by
    rw [lengthField_toNat hp]
    cases poll
    · exact hpb
    · rfl
  exact congrArg (packet cls id (lengthField poll (payloadSize F))) hb

/-- What an address reads as after the first `j` bytes of a list are stored. -/
theorem storeBytes_take_read {m : Memory} (w : m.wf = true) (a : Nat) {bs : List Byte} {j : Nat} (hj : j ≤ bs.length)
    (x : Nat) :
    (storeBytes m a (bs.take j)).read x = if a ≤ x ∧ x < a + j then bs.getD (x - a) 0 else m.read x := by
  rw [storeBytes_read w, List.length_take, Nat.min_eq_left hj]
  split
  · next h => simp [List.getD, show x - a < j by omega]
  · rfl

/-- Stopped after any number of the sequencer's steps, a `BUILD` with its beats has written the first bytes
of its packet. -/
theorem seqRun_build_writes_prefix {s t : State} {w : CmdBeat} {cap nf : Word} {cls id : Byte} {poll : Bool}
    {F : List Field} {k : Nat} (hp : s.ph = .idle) (hc : s.cmd = [w])
    (hd : decodeCmd w = .ok (.build cap nf cls id poll)) (hf : s.fld = F.map Field.beat) (hn : F.length = nf.toNat)
    (hsz : payloadSize F ≤ 65535) (h : seqRun k s = .next t) :
    ∃ j, j ≤ packetSize poll F ∧ t.mem = storeBytes s.mem s.dst.base ((packetOf cls id poll F).take j) := by
  cases k with
  | zero =>
    cases h
    exact ⟨0, Nat.zero_le _, rfl⟩
  | succ k =>
    obtain ⟨pb, hin, hpb⟩ := build_intake { s with cmd := [] } cap nf cls id poll F [] (by simpa using hf) hn hsz
    have hpkt := pktOf_stagedBuild hsz hpb
    have hplen : (stagedBuild { s with cmd := [] } cap cls id poll F [] pb).plen.toNat = payloadSize F := by
      simp [stagedBuild]
      omega
    have hlen := determineLength_next (s := stagedBuild { s with cmd := [] } cap cls id poll F [] pb) (by omega)
    rw [hplen] at hlen
    rw [seqRun, iterate_succ, seqStep_idle hp hc hd] at h
    have hpt := iterate_keeps (fun _ _ => buildPoint_seqStep hlen rfl rfl rfl) (.load _ rfl hin) h
    obtain ⟨j, hj, hm⟩ := hpt.wrotePrefix hlen
    refine ⟨j, by rw [packetSize_eq_length hsz]; exact hj, ?_⟩
    rw [hm]
    exact congrArg (fun p => storeBytes s.mem s.dst.base (p.take j)) hpkt

end Sys2Proof.Machine
end

section
/-! PROOFS. The statements about memory: what a `CKSUM` reads, and what a step, a core among others and an abandoned
`BUILD` write. -/

namespace Sys2Proof.Proofs
open Sys2Proof Sys2Proof.Machine

/-- Settles O15: both outcomes are given by the bytes of the range, which are the same. -/
theorem cksumDependsOnItsRangeOnly : Obligations.CksumDependsOnItsRangeOnly := by
  intro s s' length blen blen' hb hb' hs hs' heq
  have hsrc : srcBytes length.toNat s = srcBytes length.toNat s' :=
    List.map_congr_left fun k hk => heq k (List.mem_range.1 hk)
  refine ⟨_, _, _, execCksum_ok s length blen hb hs, execCksum_ok s' length blen' hb' hs', rfl, ?_⟩
  simp only [hsrc, and_self]

/-- Settles O43, by the run of bytes a step stores. -/
theorem stepWritesInsideDestinationOnly : Obligations.StepWritesInsideDestinationOnly := by
  intro s t hs h
  have hst := step_storesWithin hs h
  have ⟨hsrc, hdst, _⟩ := hst
  exact ⟨hsrc, hdst, fun a ha => hst.read_outside hs.1 ha⟩

/-- Settles O53, clause by clause: frame of a step, agreement of two systems, frame of a host action. -/
theorem instancesDoNotInterfere : Obligations.InstancesDoNotInterfere :=
  ⟨fun _ _ _ => System.stepAt_frame, fun _ _ _ => System.stepAt_congr, System.hostActAt_frame⟩

/-- Settles O51: every point of the run has written the first bytes of the packet, and `rst` keeps memory. -/
theorem abandonedBuildLeavesAPrefix : Obligations.AbandonedBuildLeavesAPrefix := by
  intro s w cap nf cls id poll F k t hw hp hc hd hf hn hsz h
  obtain ⟨j, hj, hm⟩ := seqRun_build_writes_prefix hp hc (decodeCmd_of_decode hd) hf hn hsz h
  refine ⟨rfl, j, hj, fun a => ?_⟩
  rw [show (rst t).mem = t.mem from rfl, hm]
  exact storeBytes_take_read hw _ (by rwa [packetOf_length]) a

end Sys2Proof.Proofs
end

section
/-! SUPPORT. Bundles: what decodes to what, the rows of the opcode table as bits of a bundle, the bits an
instruction does not depend on, and bundles as sums. -/

namespace Sys2Proof

/-! ## What decodes to what -/

theorem decode_cmd_eq_ok {w : CmdBeat} {i : Instr} :
    decode (.cmd w) = .ok i ↔ ∃ c, decodeCmd w = .ok c ∧ Instr.ofCommand c = i := by
  cases h : decodeCmd w <;> simp [decode, h, Except.map]

theorem decode_fld_eq_ok {w : FldBeat} {i : Instr} :
    decode (.fld w) = .ok i ↔ ∃ f, decodeFld w = .ok f ∧ Instr.ofField f = i := by
  cases h : decodeFld w <;> simp [decode, h, Except.map]

theorem decode_acc (w : AccWord) : decode (.acc w) = .ok (Instr.ofAccOp (decodeAcc w)) := rfl

theorem decodeTableWord_eq_some {nbits w : Nat} {i : Instr} :
    decodeTableWord nbits w = some i ↔ decode (bundleOfTableWord nbits w) = .ok i := by
  cases h : decode (bundleOfTableWord nbits w) <;> simp [decodeTableWord, h]

/-- `op` 1 is `CKSUM` (R59). -/
theorem decode_cksum {w : CmdBeat} (h : cmdOp w = 1) : decode (.cmd w) = .ok (.cksum (cmdN w) (cmdM w)) :=
  decode_cmd_eq_ok.2 ⟨_, if_pos h, rfl⟩

/-- `op` 2 is `BUILD` (R59). -/
theorem decode_build {w : CmdBeat} (h : cmdOp w = 2) :
    decode (.cmd w) = .ok (.build (cmdN w) (cmdM w) (cmdCls w) (cmdId w) (cmdPoll w)) :=
  decode_cmd_eq_ok.2 ⟨.build (cmdN w) (cmdM w) (cmdCls w) (cmdId w) (cmdPoll w), by simp [decodeCmd, h], rfl⟩

/-- A kind code that names a kind gives a field of that kind (R60). -/
theorem decode_fld_of_kind {w : FldBeat} {k : FieldKind} (h : FieldKind.ofCode (fldKind w) = some k) :
    decode (.fld w) = .ok (Instr.ofField (k, fldVal w)) :=
  decode_fld_eq_ok.2 ⟨(k, fldVal w), by simp [decodeFld, h], rfl⟩

/-- The beat of a field decodes to the instruction of that field. -/
theorem decode_beat (f : Field) : decode (.fld f.beat) = .ok (Instr.ofField f) :=
  decode_fld_eq_ok.2 ⟨f, decodeFld_beat f, rfl⟩

/-- `op` 0 and 3 are reserved (R65). -/
theorem decodeCmd_reserved {w : CmdBeat} (h : w.toNat % 4 = 0 ∨ w.toNat % 4 = 3) :
    decodeCmd w = .error (.reservedOp (cmdOp w)) := by
  rw [← cmdOp_toNat] at h
  have h1 : cmdOp w ≠ 1#2 := by rintro e; simp [e] at h
  have h2 : cmdOp w ≠ 2#2 := by rintro e; simp [e] at h
  rw [decodeCmd, if_neg h1, if_neg h2]

/-- Kinds 9 to 15 are reserved (R65). -/
theorem decodeFld_reserved {w : FldBeat} (h : 9 ≤ w.toNat % 16) :
    decodeFld w = .error (.reservedKind (fldKind w)) := by
  rw [← fldKind_toNat] at h
  simp [decodeFld, (ofCode_eq_none_iff _).2 h]

/-- `clr` takes priority (R61). -/
theorem decode_accClr {w : AccWord} (h : accClrBit w = true) : decode (.acc w) = .ok .accClr := by
  simp [decode_acc, decodeAcc, h, Instr.ofAccOp]

theorem decode_accAbs {w : AccWord} (hc : accClrBit w = false) (he : accEnBit w = true) :
    decode (.acc w) = .ok (.accAbs (accData w)) := by
  simp [decode_acc, decodeAcc, hc, he, Instr.ofAccOp]

theorem decode_accHold {w : AccWord} (hc : accClrBit w = false) (he : accEnBit w = false) :
    decode (.acc w) = .ok .accHold := by
  simp [decode_acc, decodeAcc, hc, he, Instr.ofAccOp]

/-! ## Encodings -/

/-- A value widened to `W` bits has the value itself in its low bits. -/
theorem extract_setWidth {w W : Nat} (v : BitVec w) (h : w ≤ W) : (v.setWidth W).extractLsb' 0 w = v := by
  rw [BitVec.extractLsb'_setWidth_of_le (by omega), BitVec.extractLsb'_eq_self]

/-- The encoding of a command decodes to it. -/
theorem decode_encode_ofCommand (c : Command) : decode (encode (Instr.ofCommand c)) = .ok (Instr.ofCommand c) := by
  cases c with
  | cksum length blen =>
    refine (decode_cksum ?_).trans ?_ <;> simp [Instr.ofCommand]
  | build cap nf cls id poll =>
    refine (decode_build ?_).trans ?_ <;> simp [Instr.ofCommand]

/-- The encoding of a micro-operation decodes to it. -/
theorem decode_encode_ofAccOp (a : AccOp) : decode (encode (Instr.ofAccOp a)) = .ok (Instr.ofAccOp a) := by
  cases a <;> simp [Instr.ofAccOp, encode, decode_acc]

/-- An instruction that is encoded as the beat of one of its fields is decoded from it. -/
theorem decode_encode_of_beat {i : Instr} (f : Field) (he : encode i = .fld f.beat) (hi : Instr.ofField f = i) :
    decode (encode i) = .ok i := by
  rw [he, decode_beat, hi]

/-! ## Rows of the opcode table -/

/-- The `clr` bit of an `ACC` word by mask. -/
theorem and_clrMask (w : AccWord) : w.toNat &&& 0x200 = if accClrBit w then 0x200 else 0 := by
  rw [show 0x200 = 2 ^ 9 from rfl, Nat.and_two_pow, accClrBit, BitVec.getLsbD]
  cases w.toNat.testBit 9 <;> rfl

/-- The `clr` and `en` bits of an `ACC` word by mask. -/
theorem and_accMask (w : AccWord) :
    w.toNat &&& 0x300 = (if accClrBit w then 0x200 else 0) ||| if accEnBit w then 0x100 else 0 := by
  have hen : w.toNat &&& 0x100 = if accEnBit w then 0x100 else 0 := by
    rw [show 0x100 = 2 ^ 8 from rfl, Nat.and_two_pow, accEnBit, BitVec.getLsbD]
    cases w.toNat.testBit 8 <;> rfl
  rw [show 0x300 = 0x200 ||| 0x100 from rfl, Nat.and_or_distrib_left, and_clrMask, hen]

theorem accClrBit_of_mask {w : AccWord} (h : w.toNat &&& 0x200 = 0x200) : accClrBit w = true := by
  simpa [and_clrMask] using h

/-- With `clr` and `en` read by one mask, the word of `ACC.ABS` is told by both bits. -/
theorem accBits_of_mask_abs {w : AccWord} (h : w.toNat &&& 0x300 = 0x100) :
    accClrBit w = false ∧ accEnBit w = true := by
  rw [and_accMask] at h
  cases hc : accClrBit w <;> cases he : accEnBit w <;> simp [hc, he] at h ⊢

theorem accBits_of_mask_hold {w : AccWord} (h : w.toNat &&& 0x300 = 0x000) :
    accClrBit w = false ∧ accEnBit w = false := by
  rw [and_accMask] at h
  cases hc : accClrBit w <;> cases he : accEnBit w <;> simp [hc, he] at h ⊢

/-- A field's instruction has the row of the field's kind. -/
theorem row_ofField (f : Field) : (Instr.ofField f).row = (0xF, f.1.code.toNat) := by
  obtain ⟨k, v⟩ := f
  cases k <;> rfl

theorem ofCode_eq_some_iff {c : BitVec 4} {k : FieldKind} : FieldKind.ofCode c = some k ↔ c = k.code := by
  cases k <;> (revert c; decide)

/-- A bundle lies in the row of the instruction it decodes to. -/
theorem rowSelects_of_decode {b : Bundle} {i : Instr} (h : decode b = .ok i) :
    rowSelects i.row.1 i.row.2 b = true := by
  cases b with
  | cmd w =>
    obtain ⟨c, hc, rfl⟩ := decode_cmd_eq_ok.1 h
    unfold decodeCmd at hc
    split at hc
    · next ho => cases hc; simp [rowSelects, Instr.ofCommand, Instr.row, Laws.RowMatch.and_cmdMask, ho]
    · split at hc
      · next ho => cases hc; simp [rowSelects, Instr.ofCommand, Instr.row, Laws.RowMatch.and_cmdMask, ho]
      · cases hc
  | fld w =>
    obtain ⟨f, hf, rfl⟩ := decode_fld_eq_ok.1 h
    unfold decodeFld at hf
    split at hf
    · next k hk =>
      cases hf
      simp [rowSelects, row_ofField, Laws.RowMatch.and_fldMask, ofCode_eq_some_iff.1 hk]
    · cases hf
  | acc w =>
    cases h
    unfold decodeAcc
    split
    · next hc => simp [rowSelects, Instr.ofAccOp, Instr.row, and_clrMask, hc]
    · next hc => split <;> next he => simp [rowSelects, Instr.ofAccOp, Instr.row, and_accMask, hc, he]

/-- The kind code of a beat, read by the mask of the field rows, says what the beat decodes to. -/
theorem decode_fld_of_mask {w : FldBeat} (k : FieldKind) (h : w.toNat &&& 0xF = k.code.toNat) :
    decode (.fld w) = .ok (Instr.ofField (k, fldVal w)) :=
  decode_fld_of_kind (ofCode_eq_some_iff.2 (BitVec.eq_of_toNat_eq ((Laws.RowMatch.and_fldMask w).symm.trans h)))

/-- The `op` of a command beat, read by the mask of the command rows. -/
theorem cmdOp_of_mask {w : CmdBeat} {op : BitVec 2} (h : w.toNat &&& 0x3 = op.toNat) : cmdOp w = op :=
  BitVec.eq_of_toNat_eq ((Laws.RowMatch.and_cmdMask w).symm.trans h)

theorem cksum_row_iff (w : CmdBeat) :
    w.toNat &&& 0x3 = 0x1 ↔ ∃ l b, decode (.cmd w) = .ok (.cksum l b) := by
  refine ⟨fun h => ⟨_, _, decode_cksum (cmdOp_of_mask h)⟩, ?_⟩
  rintro ⟨l, b, h⟩
  exact of_decide_eq_true (rowSelects_of_decode h)

theorem build_row_iff (w : CmdBeat) :
    w.toNat &&& 0x3 = 0x2 ↔ ∃ c n k i p, decode (.cmd w) = .ok (.build c n k i p) := by
  refine ⟨fun h => ⟨_, _, _, _, _, decode_build (cmdOp_of_mask h)⟩, ?_⟩
  rintro ⟨c, n, k, i, p, h⟩
  exact of_decide_eq_true (rowSelects_of_decode h)

theorem accClr_row_iff (w : AccWord) : w.toNat &&& 0x200 = 0x200 ↔ decode (.acc w) = .ok .accClr :=
  ⟨fun h => decode_accClr (accClrBit_of_mask h), fun h => of_decide_eq_true (rowSelects_of_decode h)⟩

theorem accAbs_row_iff (w : AccWord) : w.toNat &&& 0x300 = 0x100 ↔ ∃ d, decode (.acc w) = .ok (.accAbs d) := by
  refine ⟨fun h => ?_, ?_⟩
  · obtain ⟨hc, he⟩ := accBits_of_mask_abs h
    exact ⟨_, decode_accAbs hc he⟩
  · rintro ⟨d, h⟩
    exact of_decide_eq_true (rowSelects_of_decode h)

theorem accHold_row_iff (w : AccWord) : w.toNat &&& 0x300 = 0x000 ↔ decode (.acc w) = .ok .accHold := by
  refine ⟨fun h => ?_, fun h => of_decide_eq_true (rowSelects_of_decode h)⟩
  obtain ⟨hc, he⟩ := accBits_of_mask_hold h
  exact decode_accHold hc he

/-- The row of a field kind, whose instructions `mk` makes. -/
theorem fld_row_iff (k : FieldKind) {α : Type} (mk : α → Instr) (hmk : ∀ v, ∃ x, Instr.ofField (k, v) = mk x)
    (hrow : ∀ x, (mk x).row = (0xF, k.code.toNat)) (w : FldBeat) :
    w.toNat &&& 0xF = k.code.toNat ↔ ∃ v, decode (.fld w) = .ok (mk v) := by
  refine ⟨fun h => ?_, ?_⟩
  · obtain ⟨x, hx⟩ := hmk (fldVal w)
    exact ⟨x, hx ▸ decode_fld_of_mask k h⟩
  · rintro ⟨x, h⟩
    simpa [rowSelects, hrow x] using rowSelects_of_decode h

/-! ## Ignored bits -/

/-- A field of a bundle depends on its own bits alone. -/
theorem extractLsb'_congr {W lo n : Nat} {w w' : BitVec W}
    (h : ∀ k, lo ≤ k → k < lo + n → w.getLsbD k = w'.getLsbD k) : w.extractLsb' lo n = w'.extractLsb' lo n := by
  refine BitVec.eq_of_getLsbD_eq fun k hk => ?_
  rw [BitVec.getLsbD_extractLsb', BitVec.getLsbD_extractLsb', h (lo + k) (by omega) (by omega)]

/-- The instruction of a field depends on the low bits of its value, as many as the kind has (R60). -/
theorem ofField_congr {k : FieldKind} {v v' : BitVec 64}
    (h : v.extractLsb' 0 (8 * k.bytes) = v'.extractLsb' 0 (8 * k.bytes)) :
    Instr.ofField (k, v) = Instr.ofField (k, v') := by
  cases k with
  | u8 => exact congrArg Instr.fldU8 h
  | i8 => exact congrArg Instr.fldI8 h
  | raw => exact congrArg Instr.fldRaw h
  | u16 => exact congrArg Instr.fldU16 h
  | i16 => exact congrArg Instr.fldI16 h
  | u32 => exact congrArg Instr.fldU32 h
  | i32 => exact congrArg Instr.fldI32 h
  | f32 => exact congrArg Instr.fldF32 h
  | f64 => exact congrArg Instr.fldF64 ((BitVec.extractLsb'_eq_self.symm.trans h).trans BitVec.extractLsb'_eq_self)

/-! ## Bundles as sums -/

/-- A field put in above what a bundle holds so far adds its value at its place. -/
theorem toNat_or_atBit {W lo w : Nat} {x : BitVec W} (v : BitVec w) (hx : x.toNat < 2 ^ lo) (h : lo + w ≤ W) :
    (x ||| atBit W lo v).toNat = x.toNat + 2 ^ lo * v.toNat := by
  have hv : v.toNat * 2 ^ lo < 2 ^ W := by
    calc v.toNat * 2 ^ lo < 2 ^ w * 2 ^ lo := Nat.mul_lt_mul_of_pos_right v.isLt (Nat.two_pow_pos lo)
      _ = 2 ^ (lo + w) := by rw [Nat.add_comm, Nat.pow_add]
      _ ≤ 2 ^ W := Nat.pow_le_pow_right (by decide) h
  have hw : v.toNat < 2 ^ W := Nat.lt_of_le_of_lt (Nat.le_mul_of_pos_right _ (Nat.two_pow_pos lo)) hv
  have ha : (atBit W lo v).toNat = 2 ^ lo * v.toNat := by
    rw [atBit, BitVec.toNat_shiftLeft, BitVec.toNat_setWidth, Nat.mod_eq_of_lt hw, Nat.shiftLeft_eq,
      Nat.mod_eq_of_lt hv, Nat.mul_comm]
  rw [BitVec.toNat_or, ha, Nat.or_comm, ← Nat.two_pow_add_eq_or_of_lt hx, Nat.add_comm]

/-- The response bundle as a sum (R62). -/
theorem Rsp.beat_toNat (r : Rsp) :
    r.beat.toNat = r.status.code.toNat + 4 * r.ckA.toNat + 1024 * r.ckB.toNat + 262144 * r.count.toNat := by
  have hs := r.status.code.isLt
  have ha := r.ckA.isLt
  have hb := r.ckB.isLt
  have h0 : (atBit 50 0 r.status.code).toNat = r.status.code.toNat := by
    simpa using toNat_or_atBit (W := 50) (x := 0) (lo := 0) r.status.code (by decide) (by decide)
  have h1 := toNat_or_atBit (x := atBit 50 0 r.status.code) (lo := 2) r.ckA (by omega) (by decide)
  have h2 := toNat_or_atBit (x := atBit 50 0 r.status.code ||| atBit 50 2 r.ckA) (lo := 10) r.ckB (by omega) (by decide)
  have h3 := toNat_or_atBit (x := atBit 50 0 r.status.code ||| atBit 50 2 r.ckA ||| atBit 50 10 r.ckB) (lo := 18)
    r.count (by omega) (by decide)
  rw [Rsp.beat, h3, h2, h1, h0]
  omega

/-- `status` 3 is not used (R65). -/
theorem Status.code_lt_three (c : Status) : c.code.toNat < 3 := by cases c <;> decide

end Sys2Proof
end

section
/-! SUPPORT. A step told by what its bundle decodes to, a `BUILD` over a reserved beat, the bytes a written packet
has at its length field and payload, and how a step balances commands and responses. -/

namespace Sys2Proof.Machine

/-! ## The step a bundle makes -/

/-- In `IDLE` the oldest command is run (R136). -/
theorem step_cmd {s : State} {w : CmdBeat} {ws : List CmdBeat} {i : Instr} (ha : s.acc = none) (hp : s.ph = .idle)
    (hc : s.cmd = w :: ws) (hd : decode (.cmd w) = .ok i) : step s = exec i { s with cmd := ws } := by
  obtain ⟨c, hdc, rfl⟩ := decode_cmd_eq_ok.1 hd
  simp [step, fetch, ha, hp, fetchCommand, hc, hdc]

theorem step_cmd_reserved {s : State} {w : CmdBeat} {ws : List CmdBeat} {e : DecodeError} (ha : s.acc = none)
    (hp : s.ph = .idle) (hc : s.cmd = w :: ws) (hd : decodeCmd w = .error e) : step s = .refused (refusalOf e) := by
  simp [step, fetch, ha, hp, fetchCommand, hc, hd]

/-- In `LOAD` the oldest field beat is run, where the `BUILD` has one to take (R86). -/
theorem step_fld {s : State} {w : FldBeat} {ws : List FldBeat} {i : Instr} (ha : s.acc = none) (hp : s.ph = .load)
    (hz : s.nfr ≠ 0) (hf : s.fld = w :: ws) (hd : decode (.fld w) = .ok i) :
    step s = exec i { s with fld := ws, nfr := s.nfr - 1 } := by
  obtain ⟨f, hdf, rfl⟩ := decode_fld_eq_ok.1 hd
  simp only [step, fetch, ha, hp, fetchField, if_neg hz, hf, hdf]

theorem step_fld_reserved {s : State} {w : FldBeat} {ws : List FldBeat} {e : DecodeError} (ha : s.acc = none)
    (hp : s.ph = .load) (hz : s.nfr ≠ 0) (hf : s.fld = w :: ws) (hd : decodeFld w = .error e) :
    step s = .refused (refusalOf e) := by
  simp only [step, fetch, ha, hp, fetchField, if_neg hz, hf, hd]

/-- A word on the `ACC` input is run whatever the phase (log 2). -/
theorem step_acc {s : State} {w : AccWord} {i : Instr} (ha : s.acc = some w) (hd : decode (.acc w) = .ok i) :
    step s = exec i { s with acc := none } := by
  rw [decode_acc] at hd
  cases hd
  simp only [step, fetch, ha]

/-! ## A reserved beat inside a BUILD -/

/-- A reserved beat that a `BUILD` takes is refused. -/
theorem takeBeat_reserved {w : FldBeat} {e : DecodeError} (hd : decodeFld w = .error e) (s : State) :
    takeBeat w s = .refused (refusalOf e) := by
  simp only [takeBeat, hd]

/-- A `BUILD` that comes to a reserved beat within its `nf` is refused there, before any check of its capacity. -/
theorem execBuild_reserved {s : State} {cap nf : Word} {cls id : Byte} {poll : Bool} {F : List Field} {w : FldBeat}
    {ws : List FldBeat} {e : DecodeError} (hf : s.fld = F.map Field.beat ++ w :: ws) (hn : F.length < nf.toNat)
    (hp : payloadSize F ≤ 65535) (hd : decodeFld w = .error e) :
    execBuild cap nf cls id poll s = .refused (refusalOf e) := by
  obtain ⟨t, ht, -, hnfr, -, -⟩ :=
    intake_fields F (w :: ws) (latchBuild cap nf cls id poll s) (Nat.le_of_lt hn) (by simpa using hp)
  have hz : t.nfr ≠ 0 := by
    rintro h0
    simp [h0] at hnfr
    omega
  rw [execBuild, hf, ht, intake, if_neg hz, takeBeat_reserved hd, andThen_refused, andThen_refused]

/-! ## The bytes of a written packet -/

/-- Bytes 4 and 5 of a packet are its length field, low byte first (R48). -/
theorem packetOf_lengthField {cls id : Byte} {poll : Bool} {F : List Field} (hp : payloadSize F ≤ 65535) :
    ((packetOf cls id poll F).getD 4 0).toNat + 256 * ((packetOf cls id poll F).getD 5 0).toNat =
      if poll then 0 else payloadSize F := by
  have hlo : (packetOf cls id poll F).getD 4 0 = (lengthField poll (payloadSize F)).extractLsb' 0 8 := rfl
  have hhi : (packetOf cls id poll F).getD 5 0 = (lengthField poll (payloadSize F)).extractLsb' 8 8 := rfl
  have hlen := (lengthField poll (payloadSize F)).isLt
  rw [hlo, hhi, ← lengthField_toNat hp]
  simp only [BitVec.extractLsb'_toNat, Nat.shiftRight_eq_div_pow]
  omega

/-- The payload of a packet stands from byte 6 on (R49). -/
theorem packetOf_payload {cls id : Byte} {poll : Bool} {F : List Field} {k : Nat}
    (h : k < if poll then 0 else payloadSize F) : (packetOf cls id poll F).getD (6 + k) 0 = (serAll F).getD k 0 := by
  cases poll with
  | true => simp at h
  | false =>
    rw [show 6 + k = 2 + (4 + k) by omega, packetOf_body (by omega)]
    rw [Nat.add_comm 4 k]
    rfl

/-- What the host finds after a `BUILD` that succeeds: the packet's bytes at `DST`, and a response with their
number. -/
theorem execBuild_ok_reads {s : State} {cap nf : Word} {cls id : Byte} {poll : Bool} {F : List Field}
    {rest : List FldBeat} (hw : s.mem.wf = true) (hf : s.fld = F.map Field.beat ++ rest) (hn : F.length = nf.toNat)
    (hp : payloadSize F ≤ 65535) (hc : packetSize poll F ≤ cap.toNat) (hd : packetSize poll F ≤ s.dst.size) :
    ∃ t r, execBuild cap nf cls id poll s = .next t ∧ t.rsp = s.rsp ++ [Rsp.beat r] ∧
      r.count.toNat = packetSize poll F ∧
      ∀ k, k < packetSize poll F → t.mem.read (s.dst.base + k) = (packetOf cls id poll F).getD k 0 := by
  obtain ⟨pb, h⟩ := execBuild_ok s cap nf cls id poll F rest hf hn hp hc hd
  refine ⟨_, _, h, rfl, ?_, fun k hk => ?_⟩
  · exact Nat.mod_eq_of_lt (Nat.lt_of_le_of_lt hc cap.isLt)
  · rw [storeBytes_read hw, packetOf_length, if_pos (by omega), Nat.add_sub_cancel_left]

/-! ## Commands and responses -/

/-- From `s` to `t` responses `R` are sent and commands `C` are taken, and with the command under way they
balance (R62, R136). -/
def Balanced (s t : State) : Prop :=
  ∃ R C, t.rsp = s.rsp ++ R ∧ s.cmd = C ++ t.cmd ∧ R.length + underWay t = underWay s + C.length

theorem Balanced.length {s t : State} (h : Balanced s t) :
    t.rsp.length + underWay t + t.cmd.length = s.rsp.length + underWay s + s.cmd.length := by
  obtain ⟨R, C, hr, hc, hb⟩ := h
  rw [hr, hc, List.length_append, List.length_append]
  omega

theorem underWay_idle {s : State} (h : s.ph = .idle) : underWay s = 0 := if_pos h

theorem underWay_inside {s : State} (h : s.ph ≠ .idle) : underWay s = 1 := if_neg h

/-- Nothing sent, nothing taken, and nothing ended or begun. -/
theorem balanced_of_same {s t : State} (hr : t.rsp = s.rsp) (hc : t.cmd = s.cmd) (hu : underWay t = underWay s) :
    Balanced s t :=
  ⟨[], [], by simp [hr], by simp [hc], by simp [hu]⟩

/-- Inside an operation, and still inside it. -/
theorem balanced_inside {s t : State} (hs : s.ph ≠ .idle) (ht : t.ph ≠ .idle) (hr : t.rsp = s.rsp)
    (hc : t.cmd = s.cmd) : Balanced s t :=
  balanced_of_same hr hc (by rw [underWay_inside hs, underWay_inside ht])

theorem seqWrite_balanced {off : Nat} {b : Byte} {w : AccWord} {off' : Word} {ph : Phase} {s t : State}
    (hs : s.ph ≠ .idle) (h : seqWrite off b w off' ph s = .next t) (hp : ph ≠ .idle) : Balanced s t := by
  obtain ⟨-, ht⟩ := seqWrite_inv h
  rw [ht]
  exact balanced_inside hs hp rfl rfl

/-- Inside an operation the sequencer sends a response exactly where the operation ends. -/
theorem seqStep_balanced {s t : State} (hi : s.ph ≠ .idle) (h : seqStep s = .next t) : Balanced s t := by
  unfold seqStep at h
  cases hp : s.ph <;> simp only [hp] at h
  case idle => exact absurd hp hi
  case load =>
    obtain ⟨-, ht⟩ | ⟨-, ht⟩ := seqLoad_inv h <;> rw [ht]
    · exact balanced_inside hi nofun rfl rfl
    · exact balanced_inside hi hi rfl rfl
  case check =>
    obtain ⟨st, -, rfl, -⟩ | ⟨-, -, rfl⟩ | ⟨-, -, rfl⟩ := seqCheck_inv h <;>
      exact balanced_inside hi nofun rfl rfl
  case sync1 | sync2 | cls | idb | lenLo | cka => exact seqWrite_balanced hi h nofun
  case lenHi => exact seqWrite_balanced hi h (by split <;> nofun)
  case payload =>
    obtain ⟨-, -, ht⟩ := seqPayload_inv h
    rw [ht]
    exact balanced_inside hi (by dsimp only; split <;> nofun) rfl rfl
  case ckb =>
    obtain ⟨-, rfl⟩ := seqCkb_inv h
    exact balanced_inside hi nofun rfl rfl
  case range =>
    obtain ⟨-, ht⟩ | ⟨-, ht⟩ := seqRange_inv h <;> rw [ht]
    · exact balanced_inside hi hi rfl rfl
    · exact balanced_inside hi nofun rfl rfl
  case resp =>
    obtain ⟨r, -, rfl⟩ := seqResp_inv h
    exact ⟨[r.beat], [], rfl, rfl, by rw [underWay_inside hi]; rfl⟩

/-- A command answers at once and ends in `IDLE`, or has not answered and is under way. -/
theorem execCommand_answers {c : Command} {s t : State} (h : exec (Instr.ofCommand c) s = .next t) :
    t.cmd = s.cmd ∧ ∃ R, t.rsp = s.rsp ++ R ∧ R.length + underWay t = 1 := by
  cases c with
  | cksum length blen =>
    obtain ⟨r, ht⟩ := execCksum_inv h
    rw [ht]
    exact ⟨rfl, [r], rfl, rfl⟩
  | build cap nf cls id poll =>
    obtain ⟨-, -, hcmd, -, -, -, -, ⟨hl, -, -, hr, -⟩ | ⟨hi, -, r, bs, hr, -⟩⟩ := execBuild_inv h
    · exact ⟨hcmd, [], by simp [hr], by rw [underWay_inside (by simp [hl])]; rfl⟩
    · exact ⟨hcmd, [r], hr, by rw [underWay_idle hi]; rfl⟩

/-- Every step balances commands and responses. -/
theorem step_balanced {s t : State} (h : step s = .next t) : Balanced s t := by
  obtain ⟨w, -, e⟩ | ⟨-, e, -⟩ | ⟨-, hp, w, ws, c, hc, -, e⟩ | ⟨-, -, -, w, ws, f, -, -, e⟩ | ⟨r, e⟩ |
    ⟨-, hi, -, e⟩ := step_cases s <;> rw [e] at h
  · cases h
    rw [driveAcc_eq]
    exact balanced_of_same rfl rfl rfl
  · cases h
    exact balanced_of_same rfl rfl rfl
  · obtain ⟨hcmd, R, hr, hu⟩ := execCommand_answers (s := { s with cmd := ws }) h
    exact ⟨R, [w], hr, by rw [hc, hcmd]; rfl, by rw [hu, underWay_idle hp]; rfl⟩
  · obtain ⟨ht, -, -⟩ := stage_inv h
    rw [ht]
    exact balanced_of_same rfl rfl rfl
  · cases h
  · exact seqStep_balanced hi h

end Sys2Proof.Machine
end

section
/-! PROOFS. The statements about encodings. -/

namespace Sys2Proof.Proofs
open Sys2Proof Sys2Proof.Machine

/-- Settles O1: commands and micro-operations by the fields of their bundles, each field kind as the beat of a
field whose value is the operand with zeros above. -/
theorem decodeEncodeRoundTrip : Obligations.DecodeEncodeRoundTrip := by
  intro i
  cases i with
  | cksum length blen => exact decode_encode_ofCommand (.cksum length blen)
  | build cap nf cls id poll => exact decode_encode_ofCommand (.build cap nf cls id poll)
  | accClr => exact decode_encode_ofAccOp .clr
  | accAbs d => exact decode_encode_ofAccOp (.abs d)
  | accHold => exact decode_encode_ofAccOp .hold
  | fldU8 v => exact decode_encode_of_beat (.u8, _) rfl (congrArg Instr.fldU8 (extract_setWidth v (by decide)))
  | fldI8 v => exact decode_encode_of_beat (.i8, _) rfl (congrArg Instr.fldI8 (extract_setWidth v (by decide)))
  | fldRaw v => exact decode_encode_of_beat (.raw, _) rfl (congrArg Instr.fldRaw (extract_setWidth v (by decide)))
  | fldU16 v => exact decode_encode_of_beat (.u16, _) rfl (congrArg Instr.fldU16 (extract_setWidth v (by decide)))
  | fldI16 v => exact decode_encode_of_beat (.i16, _) rfl (congrArg Instr.fldI16 (extract_setWidth v (by decide)))
  | fldU32 v => exact decode_encode_of_beat (.u32, _) rfl (congrArg Instr.fldU32 (extract_setWidth v (by decide)))
  | fldI32 v => exact decode_encode_of_beat (.i32, _) rfl (congrArg Instr.fldI32 (extract_setWidth v (by decide)))
  | fldF32 v => exact decode_encode_of_beat (.f32, _) rfl (congrArg Instr.fldF32 (extract_setWidth v (by decide)))
  | fldF64 v => exact decode_encode_of_beat (.f64, v) rfl rfl

/-- Settles O2, row by row: the mask reads the bits the decoder looks at, and what a bundle decodes to has the
bundle in its row. -/
theorem eachTableRowSelectsItsInstruction : Obligations.EachTableRowSelectsItsInstruction :=
  ⟨fun w => ⟨cksum_row_iff w, build_row_iff w⟩,
    fun w => ⟨accClr_row_iff w, accAbs_row_iff w, accHold_row_iff w⟩,
    fun w => ⟨fld_row_iff .u8 .fldU8 (fun _ => ⟨_, rfl⟩) (fun _ => rfl) w,
      fld_row_iff .i8 .fldI8 (fun _ => ⟨_, rfl⟩) (fun _ => rfl) w,
      fld_row_iff .raw .fldRaw (fun _ => ⟨_, rfl⟩) (fun _ => rfl) w,
      fld_row_iff .u16 .fldU16 (fun _ => ⟨_, rfl⟩) (fun _ => rfl) w,
      fld_row_iff .i16 .fldI16 (fun _ => ⟨_, rfl⟩) (fun _ => rfl) w,
      fld_row_iff .u32 .fldU32 (fun _ => ⟨_, rfl⟩) (fun _ => rfl) w,
      fld_row_iff .i32 .fldI32 (fun _ => ⟨_, rfl⟩) (fun _ => rfl) w,
      fld_row_iff .f32 .fldF32 (fun _ => ⟨_, rfl⟩) (fun _ => rfl) w,
      fld_row_iff .f64 .fldF64 (fun _ => ⟨_, rfl⟩) (fun _ => rfl) w⟩⟩

/-- Settles O3: each operand is the bits of the bundle from its position up. -/
theorem commandOperandsByBitPosition : Obligations.CommandOperandsByBitPosition := by
  intro w
  rw [← cmdOp_toNat]
  refine ⟨fun h => ?_, fun h => ?_⟩
  · rw [decode_cksum (BitVec.eq_of_toNat_eq h), cmdN, cmdM, extractLsb'_eq_ofNat, extractLsb'_eq_ofNat]
  · have hpoll : cmdPoll w = decide (w.toNat / 4 % 2 = 1) := Nat.testBit_eq_decide_div_mod_eq
    rw [decode_build (BitVec.eq_of_toNat_eq h), hpoll, cmdN, cmdM, cmdCls, cmdId]
    simp only [extractLsb'_eq_ofNat]

/-- Settles O4, format by format: an instruction is made of the bits it does not ignore. -/
theorem ignoredBitsHaveNoEffect : Obligations.IgnoredBitsHaveNoEffect := by
  refine ⟨fun w w' ho ho' h => ?_, fun w w' k hk h => ?_, fun w w' hc hc' => ?_, fun w w' hc he hc' he' => ?_⟩
  · have hn : cmdN w = cmdN w' := extractLsb'_congr fun k hk _ => h k hk
    have hm : cmdM w = cmdM w' := extractLsb'_congr fun k hk _ => h k (by omega)
    rw [decode_cksum ho, decode_cksum ho', hn, hm]
  · have hkind : fldKind w = fldKind w' := extractLsb'_congr fun n _ hn => h n (by omega)
    have hval : (fldVal w).extractLsb' 0 (8 * k.bytes) = (fldVal w').extractLsb' 0 (8 * k.bytes) := by
      refine extractLsb'_congr fun n _ hn => ?_
      simp only [fldVal, BitVec.getLsbD_extractLsb', h (4 + n) (by omega)]
    rw [decode_fld_of_kind hk, decode_fld_of_kind (hkind ▸ hk), ofField_congr hval]
  · rw [decode_accClr hc, decode_accClr hc']
  · rw [decode_accHold hc he, decode_accHold hc' he']

/-- Settles O6: the layout is a sum of four fields, and the lowest is below 3. -/
theorem responseBundleLayout : Obligations.ResponseBundleLayout := by
  intro r
  have hlayout := r.beat_toNat
  have hcode := r.status.code_lt_three
  exact ⟨hlayout, by omega⟩

/-- Settles O5, by evaluating the decoder on the eight words. -/
theorem writtenWordsDecode : Obligations.WrittenWordsDecode := by
  refine ⟨?_, ?_, ?_, ?_, ?_, ?_, ?_, ?_⟩ <;> decide

end Sys2Proof.Proofs
end

section
/-! PROOFS. The statements about steps and bundles: what is run, what is refused, what a step balances. -/

namespace Sys2Proof.Proofs
open Sys2Proof Sys2Proof.Machine

/-- Settles O7: the decoder names the reserved code, and each place that takes a beat passes the name on. -/
theorem reservedCodesAreRefused : Obligations.ReservedCodesAreRefused :=
  ⟨fun _ _ _ ha hp hc hop => step_cmd_reserved ha hp hc (decodeCmd_reserved hop),
    fun _ _ _ ha hp hz hf hk => step_fld_reserved ha hp hz hf (decodeFld_reserved hk),
    fun _ _ _ _ _ _ _ _ _ hf hn hp hk => execBuild_reserved hf hn hp (decodeFld_reserved hk)⟩

/-- Settles O28: the bytes read back are the packet's, and the packet's length field counts its payload. -/
theorem lengthFieldCountsThePayload : Obligations.LengthFieldCountsThePayload := by
  intro s cap nf cls id poll F rest hw hf hn hp hc hd
  obtain ⟨t, r, ht, hr, hcount, hread⟩ := execBuild_ok_reads hw hf hn hp hc hd
  rw [packetSize_eq] at hcount hread
  have hlen := packetOf_lengthField (cls := cls) (id := id) (poll := poll) hp
  rw [← hread 4 (by omega), ← hread 5 (by omega)] at hlen
  refine ⟨t, r, ht, hr, hlen, by rw [hlen, hcount], fun k hk => ?_⟩
  rw [Nat.add_assoc, hread (6 + k) (by omega), packetOf_payload hk]

/-- Settles O44, by the responses sent and the commands taken in a step. -/
theorem oneResponsePerCommand : Obligations.OneResponsePerCommand := by
  intro s t h
  have hb := step_balanced h
  have ⟨R, C, hr, hc, _⟩ := hb
  exact ⟨hb.length, ⟨R, hr.symm⟩, ⟨C, hc.symm⟩⟩

/-- Settles O34, channel by channel. -/
theorem stepRunsTheDecodedInstruction : Obligations.StepRunsTheDecodedInstruction :=
  ⟨fun _ _ _ _ => step_cmd, fun _ _ _ _ => step_fld, fun _ _ _ => step_acc⟩

/-- Settles O35: a bundle is placed where the next step takes it, and taken away by that step. -/
theorem placedTableWordRunsNext : Obligations.PlacedTableWordRunsNext := by
  intro s nbits w i h
  have hd := decodeTableWord_eq_some.1 h
  rw [State.withFetchWord]
  generalize bundleOfTableWord nbits w = b at hd ⊢
  cases b with
  | cmd w => exact ⟨_, step_cmd rfl rfl rfl hd, rfl, rfl, rfl, rfl, rfl, rfl, rfl, rfl⟩
  | fld w =>
    have hz : (placeBundle (.fld w) s).nfr ≠ 0 := by
      dsimp only [placeBundle]
      split
      · decide
      · assumption
    exact ⟨_, step_fld rfl rfl hz rfl hd, rfl, rfl, rfl, rfl, rfl, rfl, rfl, rfl⟩
  | acc w => exact ⟨_, step_acc rfl hd, rfl, rfl, rfl, rfl, rfl, rfl, rfl, rfl⟩

/-- Settles O41, by the kind of action. -/
theorem hostActionsKeepInvariant : Obligations.HostActionsKeepInvariant := fun a _ hs => hostAct_keeps_inv hs a

end Sys2Proof.Proofs
end

section
/-! SUPPORT. The laws of `fletcher8` and the micro-operations run one after another; the packet that a `CKSUM`
reads back; the reference sequencer of `CKSUM`. -/

namespace Sys2Proof.Machine

/-! ## The laws of `fletcher8` -/

/-- The fold over what comes after starts from the sums so far (R75 (d)). -/
theorem fletcher8_append (s t : List Byte) :
    fletcher8 (s ++ t) = ((fletcher8 s).1 + (fletcher8 t).1,
      (fletcher8 s).2 + BitVec.ofNat 8 t.length * (fletcher8 s).1 + (fletcher8 t).2) := by
  rw [fletcher8_eq_from, fletcherFrom_append, ← fletcher8_eq_from, fletcherFrom_start]

theorem fletcher8_one (x : Byte) : fletcher8 [x] = (x, x) := by simp [fletcher8]

theorem fletcher8_cons (d : Byte) (s : List Byte) :
    fletcher8 (d :: s) = (d + (fletcher8 s).1, d + BitVec.ofNat 8 s.length * d + (fletcher8 s).2) := by
  rw [← List.singleton_append, fletcher8_append, fletcher8_one]

theorem fletcher8_append_toNat (s t : List Byte) :
    (fletcher8 (s ++ t)).1.toNat = ((fletcher8 s).1.toNat + (fletcher8 t).1.toNat) % 256 ∧
    (fletcher8 (s ++ t)).2.toNat =
      ((fletcher8 s).2.toNat + t.length * (fletcher8 s).1.toNat + (fletcher8 t).2.toNat) % 256 := by
  rw [fletcher8_append]
  exact ⟨BitVec.toNat_add _ _, by simp [Nat.add_mod, Nat.mul_mod]⟩

/-- A sums the bytes modulo 256 (R75 (b)). -/
theorem fletcher8_fst_toNat (s : List Byte) : (fletcher8 s).1.toNat = (s.map BitVec.toNat).sum % 256 := by
  induction s with
  | nil => rfl
  | cons d s ih => simp [fletcher8_cons, ih]

/-- The bytes summed, each weighted by the number of bytes from it to the end (R75 (b)). -/
def weightedSum (s : List Byte) : Nat :=
  ((List.range s.length).map fun i => (s.length - i) * (s.getD i 0).toNat).sum

theorem weightedSum_cons (d : Byte) (s : List Byte) :
    weightedSum (d :: s) = (s.length + 1) * d.toNat + weightedSum s := by
  simp [weightedSum, List.range_succ_eq_map, Function.comp_def]

/-- B sums the bytes so weighted, modulo 256 (R75 (b)). -/
theorem fletcher8_snd_toNat (s : List Byte) : (fletcher8 s).2.toNat = weightedSum s % 256 := by
  induction s with
  | nil => rfl
  | cons d s ih =>
    have hn : (s.length + 1) * d.toNat = d.toNat + s.length * d.toNat := by ring
    simp [fletcher8_cons, weightedSum_cons, ih, hn, Nat.add_mod, Nat.mul_mod]

theorem fletcher8_zeros (k : Nat) : fletcher8 (List.replicate k 0) = (0, 0) := by
  induction k with
  | zero => rfl
  | succ k ih =>
    rw [List.replicate_succ, fletcher8_cons, ih]
    simp

theorem weightedSum_ones (k : Nat) : 2 * weightedSum (List.replicate k 1) = k * (k + 1) := by
  induction k with
  | zero => rfl
  | succ k ih =>
    rw [List.replicate_succ, weightedSum_cons, Nat.mul_add, ih, List.length_replicate]
    simp only [BitVec.reduceToNat]
    ring

/-- The sums wrap modulo 256, not modulo 255 (R75 (a), (f)). -/
theorem fletcher8_ones_256 : fletcher8 (List.replicate 256 1) = (0, 128) := by
  have hB := weightedSum_ones 256
  refine Prod.ext (BitVec.eq_of_toNat_eq ?_) (BitVec.eq_of_toNat_eq ?_)
  · rw [fletcher8_fst_toNat, List.map_replicate, List.sum_replicate]
    rfl
  · rw [fletcher8_snd_toNat, show weightedSum (List.replicate 256 1) = 32896 by omega]
    rfl

/-! ## Micro-operations one after another -/

theorem execAll_accAbs (bs : List Byte) (s : State) : execAll (bs.map .accAbs) s = .next (absorbAll bs s) := by
  induction bs generalizing s with
  | nil => rfl
  | cons d bs ih => exact ih (absorb d s)

/-! ## The packet that a CKSUM reads back -/

/-- Bound from byte 2 of the packet on, the bytes before the two checksum bytes are the body (R50). -/
theorem srcBytes_packet {cls id : Byte} {poll : Bool} {F : List Field} {t : State} {base n : Nat}
    (hr : ∀ k, k < packetSize poll F → t.mem.read (base + k) = (packetOf cls id poll F).getD k 0) :
    srcBytes (packetSize poll F - 4) (bindSrc ⟨base + 2, n⟩ t) =
      packetBody cls id (lengthField poll (payloadSize F)) (writtenPayload poll F) := by
  have hsz := packetSize_eq poll F
  apply List.ext_getElem
  · simp [srcBytes]
    omega
  · intro k hk hk'
    simp only [srcBytes, List.length_map, List.length_range] at hk
    have hbody := packetOf_body (cls := cls) (id := id) (poll := poll) (F := F) (k := k) (by omega)
    rw [← hr _ (by omega), List.getD_eq_getElem _ _ hk', ← Nat.add_assoc] at hbody
    simpa [srcBytes, bindSrc] using hbody

/-! ## The sequencer of CKSUM -/

/-- Where the sequencer stands with the first byte of the range to read (R82). -/
def rangeStart (length blen : Word) (s : State) : State :=
  clearAcc { latchCksum length blen s with ph := .range }

/-- At the end of the range the response is formed and sent. -/
theorem iterate_range_end {s : State} (hp : s.ph = .range) (h : s.cnt.toNat ≤ s.off.toNat) :
    iterate seqStep 2 s = .next (sendRsp (okRsp s.cnt s) s) := by
  rw [iterate_add _ 1 1, iterate_one]
  simp only [seqStep, hp, seqRange, if_neg (Nat.not_lt.2 h), andThen_next]
  exact iterate_resp (follows_seqStep s.acc) rfl rfl

/-- With the range check passed, the sequencer comes to what the atomic `CKSUM` makes of the range. -/
theorem iterate_rangeStart {length blen : Word} (s : State) (hb : length.toNat ≤ blen.toNat) :
    ∃ k, iterate seqStep k (rangeStart length blen s) = execCksum length blen s := by
  have hrun : ∃ k, iterate seqStep k (rangeStart length blen s) =
      andThen (absorbRange length.toNat 0 (rangeStart length blen s)) fun t => .next { t with off := length } :=
    iterate_range (follows_seqStep s.acc) length.toNat (rangeStart length blen s) rfl rfl (Nat.zero_add _)
  obtain ⟨k, hk⟩ := hrun
  by_cases hs : length.toNat ≤ s.src.size
  · rw [absorbRange_from_zero _ (rangeStart length blen s) hs, andThen_next, rangeStart, absorbAll_clear] at hk
    refine ⟨k + 2, ?_⟩
    rw [iterate_add, rangeStart, hk, andThen_next, iterate_range_end rfl (Nat.le_refl _), execCksum_ok s _ _ hb hs]
    rfl
  · have hs : s.src.size < length.toNat := Nat.lt_of_not_le hs
    rw [absorbRange_outside _ 0 (rangeStart length blen s) (hs.trans_eq (Nat.zero_add _).symm) (Nat.zero_le _),
      andThen_refused] at hk
    exact ⟨k, hk.trans (execCksum_overrun s _ _ hb hs).symm⟩

/-- From `CHECK` on, a `CKSUM` comes to its atomic meaning (R78, R82). -/
theorem iterate_check_cksum (length blen : Word) (s : State) :
    ∃ k, iterate seqStep k { latchCksum length blen s with ph := .check } = execCksum length blen s := by
  have hstep : seqStep { latchCksum length blen s with ph := .check } =
      if invalidRange length blen then
        .next { latchCksum length blen s with response := some (errRsp .invalidRange), ph := .resp }
      else .next (rangeStart length blen s) := by
    simp only [seqStep, seqCheck, latchCksum_op, latchCksum_cnt, latchCksum_cap, driveAcc_clrWord]
    rfl
  by_cases hb : blen.toNat < length.toNat
  · refine ⟨2, ?_⟩
    rw [iterate_add _ 1 1, iterate_one, hstep, if_pos (by simpa [invalidRange] using hb), andThen_next,
      iterate_resp (follows_seqStep s.acc) (by exact rfl) (by exact rfl), execCksum_invalid s _ _ hb]
    rfl
  · obtain ⟨k, hk⟩ := iterate_rangeStart s (Nat.le_of_not_lt hb)
    refine ⟨k + 1, ?_⟩
    rw [iterate_succ, hstep, if_neg (by simpa [invalidRange] using hb), andThen_next, hk]

end Sys2Proof.Machine
end

section
/-! SUPPORT. Inside an operation a step is the sequencer's; every step that is not a wait brings the end of the
operations nearer. -/

namespace Sys2Proof.Machine

/-! ## Steps inside an operation -/

/-- In `LOAD` both levels take the same beat, wait for it, or go on to `CHECK`. -/
theorem step_load {s : State} (ha : s.acc = none) (hp : s.ph = .load) : step s = seqStep s := by
  by_cases hz : s.nfr = 0
  · simp only [step, fetch, ha, hp, fetchField, if_pos hz]
  · cases hf : s.fld with
    | nil => simp only [step, fetch, ha, hp, fetchField, seqStep, seqLoad, if_neg hz, hf]
    | cons w ws =>
      have hseq : seqStep s = takeBeat w { s with fld := ws } := by simp only [seqStep, hp, seqLoad, if_neg hz, hf]
      cases hd : decodeFld w with
      | ok f =>
        rw [hseq, step_fld ha hp hz hf (decode_fld_eq_ok.2 ⟨f, hd, rfl⟩), ← runField_eq_exec]
        simp only [takeBeat, hd]
      | error e => rw [hseq, step_fld_reserved ha hp hz hf hd, takeBeat_reserved hd]

/-- Where no word stands on the `ACC` input, a step inside an operation is the sequencer's (log 1). -/
theorem follows_step : Follows step none := by
  intro s ha hi
  cases hp : s.ph with
  | idle => exact absurd hp hi
  | load => exact step_load ha hp
  | check | sync1 | sync2 | cls | idb | lenLo | lenHi | payload | cka | ckb | range | resp =>
    simp only [step, fetch, ha, hp]

/-! ## The work left -/

/-- A bound on the steps until the operation under way has answered, if its beats are there (R83). While the
framer walks, it is told by the offset the phase writes; before `LEN` is known it counts on the longest payload. -/
def stepsLeft (s : State) : Nat :=
  match s.ph with
  | .idle => 0
  | .load => 11 + Config.pMax + s.cnt.toNat + s.fld.length
  | .check => 10 + s.len.toNat + s.cnt.toNat
  | .sync1 => 9 + s.len.toNat
  | .sync2 => 8 + s.len.toNat
  | .cls => 7 + s.len.toNat
  | .idb => 6 + s.len.toNat
  | .lenLo => 5 + s.len.toNat
  | .lenHi => 4 + s.len.toNat
  | .payload => 9 + s.len.toNat - s.off.toNat
  | .cka => 3
  | .ckb => 2
  | .range => 2 + (s.cnt.toNat - s.off.toNat)
  | .resp => 1

/-- From `s` to `t` no command is taken, the `ACC` input is as it was, and less is left of the operation under way. -/
def Advances (s t : State) : Prop := t.acc = s.acc ∧ t.cmd = s.cmd ∧ stepsLeft t < stepsLeft s

/-- A line of the walk advances where the phase it leads to has less left. -/
theorem seqWrite_advances {off : Nat} {b : Byte} {w : AccWord} {off' : Word} {ph : Phase} {s t : State}
    (h : seqWrite off b w off' ph s = .next t) (hl : stepsLeft { s with off := off', ph := ph } < stepsLeft s) :
    Advances s t := by
  obtain ⟨-, ht⟩ := seqWrite_inv h
  rw [ht]
  exact ⟨rfl, rfl, hl⟩

theorem seqLoad_advances {s t : State} (hp : s.ph = .load) (hz : s.nfr = 0) (h : seqLoad s = .next t) :
    Advances s t := by
  obtain ⟨-, ht⟩ | ⟨hnz, -⟩ := seqLoad_inv h
  · have hlen := (lengthField s.poll s.plen.toNat).isLt
    rw [ht]
    refine ⟨rfl, rfl, ?_⟩
    simp only [stepsLeft, hp, Config.pMax]
    omega
  · exact absurd hz hnz

theorem seqCheck_advances {s t : State} (hp : s.ph = .check) (h : seqCheck s = .next t) : Advances s t := by
  obtain ⟨st, -, rfl, -⟩ | ⟨-, -, rfl⟩ | ⟨-, -, rfl⟩ := seqCheck_inv h
  all_goals
    refine ⟨rfl, rfl, ?_⟩
    simp only [stepsLeft, hp]
    omega

theorem seqLenHi_advances {b : Byte} {w : AccWord} {s t : State} (hp : s.ph = .lenHi)
    (h : seqWrite 5 b w 6 (if s.len = 0 then .cka else .payload) s = .next t) : Advances s t := by
  refine seqWrite_advances h ?_
  split
  · simp only [stepsLeft, hp]
    omega
  · have hoff : (6 : Word).toNat = 6 := rfl
    simp only [stepsLeft, hp, hoff]
    omega

theorem seqPayload_advances {s t : State} (hp : s.ph = .payload) (hlt : s.off.toNat < 6 + s.len.toNat)
    (h : seqPayload s = .next t) : Advances s t := by
  obtain ⟨-, -, ht⟩ := seqPayload_inv h
  have hoff : (s.off + 1).toNat = s.off.toNat + 1 := by
    have := s.len.isLt
    exact BitVec.toNat_add_of_lt (by simp; omega)
  rw [ht]
  refine ⟨rfl, rfl, ?_⟩
  split
  all_goals
    simp only [stepsLeft, hp]
    omega

theorem seqRange_advances {s t : State} (hp : s.ph = .range) (h : seqRange s = .next t) : Advances s t := by
  obtain ⟨hlt, ht⟩ | ⟨-, ht⟩ := seqRange_inv h
  · have hoff : (s.off + 1).toNat = s.off.toNat + 1 := by
      have := s.cnt.isLt
      exact BitVec.toNat_add_of_lt (by simp; omega)
    rw [ht]
    refine ⟨rfl, rfl, ?_⟩
    simp only [stepsLeft, hp]
    omega
  · rw [ht]
    exact ⟨rfl, rfl, by simp only [stepsLeft, hp]; omega⟩

/-- Inside an operation every step of the sequencer advances it, phase by phase (R83). -/
theorem seqStep_advances {s t : State} (hs : Inv s) (hi : s.ph ≠ .idle) (hz : s.ph = .load → s.nfr = 0)
    (h : seqStep s = .next t) : Advances s t := by
  obtain ⟨-, hl⟩ := inv_iff.1 hs
  unfold PhaseLegal at hl
  unfold seqStep at h
  cases hp : s.ph <;> simp only [hp] at hl h
  case idle => exact absurd hp hi
  case load => exact seqLoad_advances hp (hz hp) h
  case check => exact seqCheck_advances hp h
  case sync1 | sync2 | cls | idb | lenLo | cka => exact seqWrite_advances h (by simp only [stepsLeft, hp]; omega)
  case lenHi => exact seqLenHi_advances hp h
  case payload =>
    obtain ⟨-, -, hlt⟩ := hl
    exact seqPayload_advances hp hlt h
  case ckb =>
    obtain ⟨-, rfl⟩ := seqCkb_inv h
    exact ⟨rfl, rfl, by simp only [stepsLeft, hp]; omega⟩
  case range => exact seqRange_advances hp h
  case resp =>
    obtain ⟨r, -, rfl⟩ := seqResp_inv h
    exact ⟨rfl, rfl, by simp [stepsLeft, hp]⟩

/-- A field taken in `LOAD` leaves one beat less to take. -/
theorem stage_advances {bs : List Byte} {s t : State} {w : FldBeat} {ws : List FldBeat} {n : Word}
    (hp : s.ph = .load) (hf : s.fld = w :: ws) (h : stage bs { s with fld := ws, nfr := n } = .next t) :
    Advances s t := by
  obtain ⟨ht, -⟩ := stage_inv h
  rw [ht]
  exact ⟨rfl, rfl, by simp [stepsLeft, hp, hf]⟩

/-- A host operation puts no word on the `ACC` input. -/
theorem execCommand_keeps_acc {c : Command} {s t : State} (h : exec (Instr.ofCommand c) s = .next t) :
    t.acc = s.acc := by
  cases c with
  | cksum length blen =>
    obtain ⟨r, ht⟩ := execCksum_inv h
    rw [ht]
  | build cap nf cls id poll =>
    obtain ⟨-, -, -, hacc, -⟩ := execBuild_inv h
    exact hacc

/-- What a run has left: the commands that wait, then the operation under way. -/
def work (s : State) : Nat × Nat := (s.cmd.length, stepsLeft s)

/-- Less work is left in `t` than in `s`. -/
def LessWork (t s : State) : Prop := Prod.Lex (· < ·) (· < ·) (work t) (work s)

theorem Advances.lessWork {s t : State} (h : Advances s t) : LessWork t s := by
  obtain ⟨-, hcmd, hlt⟩ := h
  rw [LessWork, work, hcmd]
  exact .right _ hlt

/-- With no word on the `ACC` input, a core has ended, is stuck, or has less work left after a step. -/
theorem step_progress {s t : State} (hs : Inv s) (ha : s.acc = none) (h : step s = .next t) :
    (Ended s ∨ Stuck s) ∨ t.acc = none ∧ LessWork t s := by
  have hadvance (hadv : Advances s t) : t.acc = none ∧ LessWork t s := ⟨hadv.1.trans ha, hadv.lessWork⟩
  obtain ⟨w, hw, -⟩ | ⟨-, -, hend⟩ | ⟨-, -, w, ws, c, hc, -, e⟩ | ⟨-, hp, -, w, ws, f, hf, -, e⟩ | ⟨r, e⟩ |
    ⟨-, hi, hz, e⟩ := step_cases s
  · exact absurd (ha.symm.trans hw) nofun
  · exact .inl hend
  · rw [e] at h
    obtain ⟨hcmd, -⟩ := execCommand_answers h
    exact .inr ⟨(execCommand_keeps_acc h).trans ha, .left _ _ (by simp [hcmd, hc])⟩
  · exact .inr (hadvance (stage_advances hp hf (e.symm.trans h)))
  · exact absurd (e.symm.trans h) nofun
  · exact .inr (hadvance (seqStep_advances hs hi hz (e.symm.trans h)))

/-! ## Runs come to an end -/

/-- Some number of steps comes to a core that has ended or is stuck, or to a refusal. -/
def Halts (s : State) : Prop :=
  ∃ k, (∃ t, stepRun k s = .next t ∧ t.acc = none ∧ (Ended t ∨ Stuck t)) ∨ ∃ r, stepRun k s = .refused r

theorem halts_of_step {s t : State} (h : step s = .next t) (ht : Halts t) : Halts s := by
  obtain ⟨k, hk⟩ := ht
  exact ⟨k + 1, by simpa only [stepRun, iterate_succ, h, andThen_next] using hk⟩

/-- A legal core with no word on the `ACC` input halts: the work left falls with every step. -/
theorem halts_of_no_word {s : State} (hs : Inv s) (ha : s.acc = none) : Halts s := by
  cases h : step s with
  | fault r => exact absurd (seqStep_fault_of_step h) (seqStep_no_fault hs r)
  | refused r => exact ⟨1, .inr ⟨r, by rw [stepRun, iterate_one, h]⟩⟩
  | next t =>
    obtain hend | ⟨hta, hlt⟩ := step_progress hs ha h
    · exact ⟨0, .inl ⟨s, rfl, ha, hend⟩⟩
    · exact halts_of_step h (halts_of_no_word (step_keeps_inv hs h) hta)
termination_by work s
decreasing_by exact hlt

/-- A word on the `ACC` input is gone after one step, and the rest of the run is as without it. -/
theorem halts {s : State} (hs : Inv s) : Halts s := by
  cases ha : s.acc with
  | none => exact halts_of_no_word hs ha
  | some w =>
    have hstep : step s = .next (driveAcc w { s with acc := none }) :=
      (step_acc ha (decode_acc w)).trans (exec_ofAccOp w _)
    exact halts_of_step hstep (halts_of_no_word (step_keeps_inv hs hstep) (by rw [driveAcc_eq]))

/-- Commands and responses balance over any number of steps (R62, R136). -/
theorem stepRun_balanced {k : Nat} {s t : State} (h : stepRun k s = .next t) :
    t.rsp.length + underWay t + t.cmd.length = s.rsp.length + underWay s + s.cmd.length :=
  iterate_keeps (P := fun u => u.rsp.length + underWay u + u.cmd.length = s.rsp.length + underWay s + s.cmd.length)
    (fun _ _ hx hy => (step_balanced hy).length.trans hx) rfl h

/-- A run that comes to a core that has ended has answered every command (R155). -/
theorem endOfRun_of_ended {k : Nat} {s t : State} (h : stepRun k s = .next t) (ht : Ended t) : EndOfRun s t := by
  refine ⟨ht, ?_⟩
  obtain ⟨hp, hc⟩ := ht
  have hbal := stepRun_balanced h
  rwa [underWay_idle hp, hc] at hbal

end Sys2Proof.Machine
end

section
/-! PROOFS. The statements about the checksum engine, and about how runs end. -/

namespace Sys2Proof.Proofs
open Sys2Proof Sys2Proof.Machine

/-- Settles O8: the bit `clr` decides alone. -/
theorem accClearZeroesBothSums : Obligations.AccClearZeroesBothSums :=
  ⟨fun _ => rfl, fun _ => decode_accClr⟩

/-- Settles O9: both sums are additions of bytes, and the operand is the low byte of the word. -/
theorem accAbsorbAddsModulo256 : Obligations.AccAbsorbAddsModulo256 := by
  refine ⟨fun s d => ⟨absorb d s, rfl, rfl, BitVec.toNat_add _ _, BitVec.toNat_add _ _⟩, fun w hc he => ?_⟩
  rw [decode_accAbs hc he, accData, extractLsb'_eq_ofNat, pow_zero, Nat.div_one]

/-- Settles O10: the word that holds decodes to no change. -/
theorem accHoldKeepsEverything : Obligations.AccHoldKeepsEverything :=
  ⟨fun _ => rfl, fun _ => decode_accHold⟩

/-- Settles O11: the micro-operations absorb the list, which from cleared sums is the fold. -/
theorem fletcherIsClearThenAbsorbEach : Obligations.FletcherIsClearThenAbsorbEach :=
  ⟨fun s bs => (execAll_accAbs bs (clearAcc s)).trans (congrArg _ (absorbAll_clear bs s)), rfl, fletcher8_one⟩

/-- Settles O12: every law follows from how the fold of a concatenation is made of those of its parts. -/
theorem fletcherArithmeticLaws : Obligations.FletcherArithmeticLaws := by
  refine ⟨fun s => ⟨fletcher8_fst_toNat s, fletcher8_snd_toNat s⟩, fun s d => ?_, fletcher8_append_toNat,
    ⟨rfl, rfl⟩, fletcher8_ones_256, fun s k => ⟨?_, ?_⟩⟩
  · rw [fletcher8_append_one, BitVec.add_assoc]
  · rw [fletcher8_append, fletcher8_zeros]
    exact BitVec.add_zero _
  · have h := (fletcher8_append_toNat s (List.replicate k 0)).2
    rwa [fletcher8_zeros, List.length_replicate] at h

/-- Settles O13: the range check passes or fails. -/
theorem cksumIsOneAtomicTransition : Obligations.CksumIsOneAtomicTransition :=
  fun s length blen => ⟨fun hb hs => ⟨_, execCksum_ok s length blen hb hs, rfl⟩,
    fun hb => ⟨_, execCksum_invalid s length blen hb, rfl⟩⟩

/-- Settles O14: the range check comes before any access to `SRC`. -/
theorem invalidRangeComputesNothing : Obligations.InvalidRangeComputesNothing :=
  fun s length blen hb => ⟨_, execCksum_invalid s length blen hb, rfl, rfl, rfl, rfl, rfl, rfl, rfl, rfl⟩

/-- Settles O29: what `CKSUM` reads is the body, whose sums are the last two bytes of the packet. -/
theorem builtPacketVerifiesByCksum : Obligations.BuiltPacketVerifiesByCksum := by
  intro s cap nf cls id poll F rest hw hf hn hp hc hd
  obtain ⟨t, r, ht, -, -, hread⟩ := execBuild_ok_reads hw hf hn hp hc hd
  have hsz := packetSize_eq poll F
  have hcap := cap.isLt
  have hl : (BitVec.ofNat 32 (packetSize poll F - 4)).toNat = packetSize poll F - 4 :=
    Nat.mod_eq_of_lt (by omega)
  have hb : (BitVec.ofNat 32 (packetSize poll F - 2)).toNat = packetSize poll F - 2 :=
    Nat.mod_eq_of_lt (by omega)
  have hsum : fletcher8 (srcBytes (BitVec.ofNat 32 (packetSize poll F - 4)).toNat
      (bindSrc ⟨s.dst.base + 2, packetSize poll F - 2⟩ t)) = packetSum cls id poll F := by
    rw [hl, srcBytes_packet hread, packetSum]
  have ⟨hA, hB⟩ := packetOf_sum cls id poll F
  have hsrc : packetSize poll F - 4 ≤ packetSize poll F - 2 := by omega
  refine ⟨t, _, ht, execCksum_ok _ _ _ (by omega) (hl.trans_le hsrc), rfl, ?_, ?_⟩
  · rw [hread _ (by omega), hA, ← hsum]
  · rw [hread _ (by omega), hB, ← hsum]

/-- Settles O47: the command is taken in, and the rest of the run is that from `CHECK` on. -/
theorem sequencerRefinesCksum : Obligations.SequencerRefinesCksum := by
  intro s w ws length blen hp hc hd
  obtain ⟨k, hk⟩ := iterate_check_cksum length blen { s with cmd := ws }
  have hstep := seqStep_idle hp hc (decodeCmd_of_decode (c := .cksum length blen) hd)
  exact ⟨k + 1, by rw [seqRun, iterate_succ, hstep]; exact hk⟩

/-- Settles O38: the run halts, and where it has ended commands and responses balance. -/
theorem everyRunEndsSticksOrIsRefused : Obligations.EveryRunEndsSticksOrIsRefused := by
  intro s hs
  obtain ⟨k, ⟨t, ht, ha, hend⟩ | hr⟩ := halts hs
  · exact ⟨k, .inl ⟨t, ht, ha, hend.imp_left (endOfRun_of_ended ht)⟩⟩
  · exact ⟨k, .inr hr⟩

/-- Settles O49: in `LOAD` the two take the same beat, elsewhere `step` is the sequencer's by definition. -/
theorem stepFollowsSequencerInsideOperation : Obligations.StepFollowsSequencerInsideOperation := follows_step

end Sys2Proof.Proofs
end

section
/-! SUPPORT. How a `BUILD` ends where it answers a next state, and where it waits; what its host reads of the
packet; poll requests and empty messages; and the run that takes the beats that come late. -/

namespace Sys2Proof.Machine

/-! ## How a BUILD answers -/

/-- Everything a `BUILD` can do after field intake, where it answers a next state: wait with beats left to
take, or finish. -/
theorem execBuild_cases {cap nf : Word} {cls id : Byte} {poll : Bool} {s t : State}
    (h : execBuild cap nf cls id poll s = .next t) :
    ∃ u, intake s.fld (latchBuild cap nf cls id poll s) = .next u ∧
      ((u.nfr ≠ 0 ∧ t = u) ∨ (u.nfr = 0 ∧ finishBuild u = .next t)) := by
  obtain ⟨u, hu, h⟩ := andThen_eq_next.1 h
  refine ⟨u, hu, ?_⟩
  split at h
  · next hz => exact .inr ⟨hz, h⟩
  · next hz =>
    cases h
    exact .inl ⟨hz, rfl⟩

/-- What follows field intake ends in `IDLE` with one response: the error exactly where the capacity is below
`8 + L` (R88, R95). -/
theorem finishBuild_inv {u t : State} (h : finishBuild u = .next t) :
    t.ph = .idle ∧ ∃ r, t.rsp = u.rsp ++ [Rsp.beat r] ∧
      ((u.cap.toNat < 8 + t.len.toNat ∧ r = errRsp .bufferTooSmall) ∨
       (8 + t.len.toNat ≤ u.cap.toNat ∧ r.status = .ok)) := by
  obtain ⟨v, hv, h⟩ := andThen_eq_next.1 h
  obtain ⟨-, rfl⟩ := determineLength_inv hv
  split at h
  · next hc =>
    cases h
    exact ⟨rfl, _, rfl, .inl ⟨bufferTooSmall_eq_true.1 hc, rfl⟩⟩
  · next hc =>
    obtain ⟨-, ht⟩ := writePacket_inv h
    rw [Bool.not_eq_true, bufferTooSmall_eq_false] at hc
    have hlen : t.len = lengthField u.poll u.plen.toNat := by rw [ht]
    exact ⟨by rw [ht], _, congrArg State.rsp ht, .inr ⟨by rwa [hlen], rfl⟩⟩

/-- A payload over 65535 bytes is refused in field intake, before the capacity is looked at (R121). -/
theorem execBuild_too_large (s : State) (cap nf : Word) (cls id : Byte) (poll : Bool) (F : List Field)
    (rest : List FldBeat) (hf : s.fld = F.map Field.beat ++ rest) (hn : F.length = nf.toNat)
    (hp : 65535 < payloadSize F) : execBuild cap nf cls id poll s = .refused .payloadTooLarge := by
  rw [execBuild, hf, intake_too_large F rest _ (by simp [hn]) (by simp) (by simpa using hp), andThen_refused]

/-! ## What the host reads of a packet -/

/-- A packet stored at `DST` is what the host reads there. -/
theorem dstBytes_packet {m : Memory} {t : State} {cls id : Byte} {poll : Bool} {F : List Field} (hw : m.wf = true)
    (hm : t.mem = storeBytes m t.dst.base (packetOf cls id poll F)) :
    dstBytes (packetSize poll F) t = packetOf cls id poll F := by
  rw [dstBytes, hm, ← packetOf_length cls id poll F]
  exact storeBytes_readBack hw _ _

/-- The last two bytes of a stored packet read as its checksum (R94). -/
theorem storeBytes_packet_sums {m : Memory} (hw : m.wf = true) (a : Nat) (cls id : Byte) (poll : Bool)
    (F : List Field) :
    (packetSum cls id poll F).1 = (storeBytes m a (packetOf cls id poll F)).read (a + (packetSize poll F - 2)) ∧
    (packetSum cls id poll F).2 = (storeBytes m a (packetOf cls id poll F)).read (a + (packetSize poll F - 1)) := by
  obtain ⟨hA, hB⟩ := packetOf_sum cls id poll F
  have hsz := packetSize_eq poll F
  constructor <;> rw [storeBytes_read hw, packetOf_length, if_pos (by omega), Nat.add_sub_cancel_left]
  · exact hA.symm
  · exact hB.symm

/-! ## Poll requests and empty messages -/

/-- The body of a poll request: class, id and a length of 0. -/
theorem packetBody_poll (cls id : Byte) (F : List Field) :
    packetBody cls id (lengthField true (payloadSize F)) (writtenPayload true F) = [cls, id, 0, 0] :=
  congrArg (cls :: id :: ·) (show leBytes 2 (0 : BitVec 16) ++ [] = [0, 0] by decide)

/-- The checksum of a poll request in closed form (R97). -/
theorem packetSum_poll (cls id : Byte) (F : List Field) :
    packetSum cls id true F = (cls + id, 4 * cls + 3 * id) := by
  rw [packetSum, packetBody_poll]
  refine Prod.ext ?_ ?_ <;> simp only [fletcher8, List.foldl_cons, List.foldl_nil] <;> ring

/-- The packet of a poll request, whatever fields were supplied (R97). -/
theorem packetOf_poll (cls id : Byte) (F : List Field) :
    packetOf cls id true F = [0xB5, 0x62, cls, id, 0, 0, cls + id, 4 * cls + 3 * id] := by
  rw [packetOf_eq, packetBody_poll, packetSum_poll]
  rfl

/-- What the packet is written from does not include `POLL`. -/
theorem writePacket_poll (s : State) (p : Bool) :
    writePacket { s with poll := p } = andThen (writePacket s) fun t => .next { t with poll := p } := by
  by_cases hd : 8 + s.len.toNat ≤ s.dst.size
  · rw [writePacket_inside s hd, writePacket_inside { s with poll := p } hd]
    rfl
  · have hd' : s.dst.size < 8 + s.len.toNat := Nat.lt_of_not_le hd
    rw [writePacket_outside s hd', writePacket_outside { s with poll := p } hd', andThen_refused]

/-- With no field to take and none staged, the length field is 0, poll or not (R98). -/
theorem execBuild_no_fields (cap : Word) (cls id : Byte) (poll : Bool) (s : State) :
    execBuild cap 0 cls id poll s =
      if bufferTooSmall cap 0 then
        .next (raiseError .bufferTooSmall { latchBuild cap 0 cls id poll s with len := 0 })
      else writePacket { latchBuild cap 0 cls id poll s with len := 0 } := by
  rw [execBuild_supplied (intake_done _ _ rfl) rfl, finishBuild, determineLength_next (by simp), andThen_next]
  cases poll <;> rfl

/-- A `BUILD` with no fields is the same operation with `poll` 0 and 1, but for the register `POLL` (R98). -/
theorem execBuild_no_fields_poll (cap : Word) (cls id : Byte) (s : State) :
    execBuild cap 0 cls id false s =
      andThen (execBuild cap 0 cls id true s) fun t => .next { t with poll := false } := by
  rw [execBuild_no_fields, execBuild_no_fields]
  split
  · rfl
  · exact writePacket_poll { latchBuild cap 0 cls id true s with len := 0 } false

/-! ## Beats that come late -/

/-- A stuck core makes no progress (R153; log 10). -/
theorem step_stuck {s : State} (ha : s.acc = none) (h : Stuck s) : step s = .next s := by
  obtain ⟨hp, hz, hf⟩ := h
  simp only [step, fetch, ha, hp, fetchField, if_neg hz, hf]

/-- A `BUILD` that answers in `LOAD` has taken every beat there was and is to take more (R153). -/
theorem execBuild_load_inv {cap nf : Word} {cls id : Byte} {poll : Bool} {s t : State}
    (h : execBuild cap nf cls id poll s = .next t) (hp : t.ph = .load) :
    intake s.fld (latchBuild cap nf cls id poll s) = .next t ∧ t.nfr ≠ 0 ∧ t.fld = [] := by
  obtain ⟨u, hu, ⟨hz, rfl⟩ | ⟨-, hfin⟩⟩ := execBuild_cases h
  · obtain ⟨-, -, hend, -⟩ := intake_inv hu
    exact ⟨hu, hz, hend.resolve_left hz⟩
  · obtain ⟨hidle, -⟩ := finishBuild_inv hfin
    exact absurd (hp.symm.trans hidle) nofun

/-- With fewer beats than `nf`, intake takes those there are and the `BUILD` waits (R86, R153). -/
theorem execBuild_waits {s : State} {cap nf : Word} {cls id : Byte} {poll : Bool} {F : List Field}
    (hf : s.fld = F.map Field.beat) (hn : F.length < nf.toNat) (hp : payloadSize F ≤ 65535) :
    ∃ n pl pb, execBuild cap nf cls id poll s =
        .next { latchBuild cap nf cls id poll s with nfr := n, plen := pl, pbuf := pb, fld := [] } ∧
      n ≠ 0 ∧ n.toNat = nf.toNat - F.length ∧ pl.toNat = payloadSize F ∧
      pbufBytes (payloadSize F) { s with pbuf := pb } = serAll F := by
  obtain ⟨t, ht, hteq, hnfr, hplen, hpbuf⟩ :=
    intake_fields F [] (latchBuild cap nf cls id poll s) (Nat.le_of_lt hn) (by simpa using hp)
  have hnfr' : t.nfr.toNat = nf.toNat - F.length := hnfr
  have hplen' : t.plen.toNat = payloadSize F := hplen.trans (Nat.zero_add _)
  have hz : t.nfr ≠ 0 := by
    intro h0
    simp [h0] at hnfr'
    omega
  refine ⟨t.nfr, t.plen, t.pbuf, ?_, hz, hnfr', hplen', ?_⟩
  · rw [execBuild, hf, ← List.append_nil (F.map Field.beat), ht, intake, andThen_next, if_neg (by exact hz)]
    exact congrArg (fun u : State => Host.Outcome.next { u with fld := [] }) hteq
  · rw [hplen', hteq] at hpbuf
    exact hpbuf

/-- Once a waiting `BUILD` is sent more beats, a run comes to what the `BUILD` makes of all of them. -/
theorem iterate_late_beats {f : State → Result} {cap nf : Word} {cls id : Byte} {poll : Bool} {s t : State}
    (hf : Follows f t.acc) (h : execBuild cap nf cls id poll s = .next t) (hp : t.ph = .load) (late : List FldBeat) :
    ∃ k, iterate f k (late.foldl (fun u w => sendFld w u) t) =
      execBuild cap nf cls id poll { s with fld := s.fld ++ late } := by
  obtain ⟨hin, hz, hfld⟩ := execBuild_load_inv h hp
  obtain ⟨-, hop, -⟩ := execBuild_inv h
  obtain ⟨k, hk⟩ := iterate_build hf { t with fld := late } rfl hp hop
  refine ⟨k, ?_⟩
  rw [foldl_sendFld, hfld, List.nil_append, hk]
  have hall : intake late { t with fld := late } =
      intake (s.fld ++ late) (latchBuild cap nf cls id poll { s with fld := s.fld ++ late }) := by
    calc intake late { t with fld := late }
      _ = intake late t := intake_fld late t late
      _ = intake (s.fld ++ late) (latchBuild cap nf cls id poll s) := (intake_append hin hz late).symm
      _ = _ := (intake_fld _ (latchBuild cap nf cls id poll s) _).symm
  rw [hall]
  rfl

end Sys2Proof.Machine
end

section
/-! PROOFS. The statements about the packet builder. -/

namespace Sys2Proof.Proofs
open Sys2Proof Sys2Proof.Machine

/-- Settles O23: the payload is too large, or the capacity too small, or the packet is written. -/
theorem buildIsOneAtomicTransition : Obligations.BuildIsOneAtomicTransition := by
  intro s cap nf cls id poll F rest hw hf hn
  refine ⟨execBuild_too_large s cap nf cls id poll F rest hf hn, fun hp hc => ?_, fun hp hc hd => ?_⟩
  · obtain ⟨pb, h⟩ := execBuild_too_small s cap nf cls id poll F rest hf hn hp hc
    exact ⟨_, h, rfl⟩
  · obtain ⟨pb, h⟩ := execBuild_ok s cap nf cls id poll F rest hf hn hp hc hd
    obtain ⟨hA, hB⟩ := storeBytes_packet_sums hw s.dst.base cls id poll F
    refine ⟨_, h, ?_, fun a ha => ?_, hA, hB, rfl⟩
    · exact dstBytes_packet hw rfl
    · rw [storeBytes_read hw, packetOf_length, if_neg (by omega)]

/-- Settles O24: the check comes before the write, and with room a next state is that of a written packet. -/
theorem bufferTooSmallWritesNothing : Obligations.BufferTooSmallWritesNothing := by
  intro s cap nf cls id poll F rest hf hn hp
  refine ⟨fun hc => ?_, fun hc t ht => ?_⟩
  · obtain ⟨pb, h⟩ := execBuild_too_small s cap nf cls id poll F rest hf hn hp hc
    exact ⟨_, h, rfl, rfl, rfl, rfl, rfl, rfl, rfl, rfl, rfl, rfl⟩
  · by_cases hd : packetSize poll F ≤ s.dst.size
    · obtain ⟨pb, h⟩ := execBuild_ok s cap nf cls id poll F rest hf hn hp hc hd
      cases ht.symm.trans h
      exact ⟨_, rfl, rfl⟩
    · have h := execBuild_overrun s cap nf cls id poll F rest hf hn hp hc (Nat.lt_of_not_le hd)
      exact absurd (ht.symm.trans h) nofun

/-- Settles O25: `CKSUM` by its three outcomes, `BUILD` by whether it waits or finishes. -/
theorem eachOperationRaisesOnlyItsOwnError : Obligations.EachOperationRaisesOnlyItsOwnError := by
  refine ⟨fun s t length blen h => ?_, fun s t cap nf cls id poll h => ?_⟩
  · by_cases hb : blen.toNat < length.toNat
    · cases h.symm.trans (execCksum_invalid s _ _ hb)
      exact ⟨_, rfl, nofun, ⟨fun _ => hb, fun _ => rfl⟩, fun _ => ⟨rfl, rfl, rfl⟩⟩
    · by_cases hs : length.toNat ≤ s.src.size
      · cases h.symm.trans (execCksum_ok s _ _ (Nat.le_of_not_lt hb) hs)
        exact ⟨_, rfl, nofun, ⟨nofun, fun hlt => absurd hlt hb⟩, nofun⟩
      · exact absurd (h.symm.trans (execCksum_overrun s _ _ (Nat.le_of_not_lt hb) (Nat.lt_of_not_le hs))) nofun
  · obtain ⟨u, hu, hend⟩ := execBuild_cases h
    obtain ⟨hueq, -⟩ := intake_inv hu
    have hph : u.ph = .load := congrArg State.ph hueq
    have hrsp : u.rsp = s.rsp := (congrArg State.rsp hueq :)
    have hcap : u.cap = cap := congrArg State.cap hueq
    obtain ⟨-, rfl⟩ | ⟨-, hfin⟩ := hend
    · exact .inl ⟨hph, hrsp⟩
    · obtain ⟨-, r, hr, hcase⟩ := finishBuild_inv hfin
      rw [hrsp] at hr
      rw [hcap] at hcase
      refine .inr ⟨r, hr, ?_⟩
      obtain ⟨hlt, rfl⟩ | ⟨hle, hok⟩ := hcase
      · exact ⟨nofun, ⟨fun _ => hlt, fun _ => rfl⟩, fun _ => ⟨rfl, rfl, rfl⟩⟩
      · rw [hok]
        exact ⟨nofun, ⟨nofun, fun hlt => absurd hlt (Nat.not_lt.2 hle)⟩, nofun⟩

/-- Settles O26: the packet and the checksum of a poll request in closed form. -/
theorem pollPacketIgnoresItsFields : Obligations.PollPacketIgnoresItsFields := by
  intro s cap nf cls id F rest hw hf hn hp hc hd
  obtain ⟨pb, h⟩ := execBuild_ok s cap nf cls id true F rest hf hn hp hc hd
  rw [packetSum_poll] at h
  exact ⟨_, h, rfl, (dstBytes_packet (poll := true) (F := F) hw rfl).trans (packetOf_poll cls id F), rfl⟩

/-- Settles O27: with no fields the length is 0 either way. -/
theorem emptyMessageIsWrittenAsAPoll : Obligations.EmptyMessageIsWrittenAsAPoll := by
  intro s cap cls id t h
  exact (execBuild_no_fields_poll cap cls id s).trans (congrArg (andThen · _) h)

/-- Settles O30: both outcomes are told by the operands alone. -/
theorem buildReadsNoEarlierState : Obligations.BuildReadsNoEarlierState := by
  intro s s' cap nf cls id poll F rest rest' hw hw' hf hf' hn hp hd hd'
  by_cases hc : packetSize poll F ≤ cap.toNat
  · obtain ⟨pb, h⟩ := execBuild_ok s cap nf cls id poll F rest hf hn hp hc hd
    obtain ⟨pb', h'⟩ := execBuild_ok s' cap nf cls id poll F rest' hf' hn hp hc hd'
    refine ⟨_, _, _, h, h', rfl, rfl, fun _ => ⟨?_, rfl, rfl⟩⟩
    exact (dstBytes_packet hw rfl).trans (dstBytes_packet hw' rfl).symm
  · have hc' : cap.toNat < packetSize poll F := Nat.lt_of_not_le hc
    obtain ⟨pb, h⟩ := execBuild_too_small s cap nf cls id poll F rest hf hn hp hc'
    obtain ⟨pb', h'⟩ := execBuild_too_small s' cap nf cls id poll F rest' hf' hn hp hc'
    exact ⟨_, _, _, h, h', rfl, rfl, fun hle => absurd hle hc⟩

/-- Settles O32: intake takes the beats there are, and leaves a stuck core. -/
theorem buildWaitsForItsBeats : Obligations.BuildWaitsForItsBeats := by
  intro s cap nf cls id poll F hf hn hp
  obtain ⟨n, pl, pb, h, hz, hnfr, hplen, hpbuf⟩ :=
    execBuild_waits (cap := cap) (cls := cls) (id := id) (poll := poll) hf hn hp
  exact ⟨_, h, rfl, rfl, hnfr, hplen, rfl, rfl, rfl, rfl, rfl, rfl, rfl, rfl, rfl, rfl, hpbuf, rfl, rfl, rfl,
    fun ha => step_stuck ha ⟨rfl, hz, rfl⟩⟩

/-- Settles O33: `step` and the sequencer both take the late beats as intake would have. -/
theorem lateBeatsCompleteAWaitingBuild : Obligations.LateBeatsCompleteAWaitingBuild := by
  intro s t cap nf cls id poll late h hp
  refine ⟨fun ha => ?_, iterate_late_beats (follows_seqStep t.acc) h hp late⟩
  obtain ⟨-, -, -, hacc, -⟩ := execBuild_inv h
  have hstep : Follows step t.acc := (hacc.trans ha) ▸ follows_step
  exact iterate_late_beats hstep h hp late

/-- Settles O48: the command is taken in, and the rest of the run is that from `LOAD` on. -/
theorem sequencerRefinesBuild : Obligations.SequencerRefinesBuild := by
  intro s w ws cap nf cls id poll hp hc hd
  obtain ⟨k, hk⟩ :=
    iterate_build (follows_seqStep s.acc) (latchBuild cap nf cls id poll { s with cmd := ws }) rfl rfl rfl
  have hstep := seqStep_idle hp hc (decodeCmd_of_decode (c := .build cap nf cls id poll) hd)
  exact ⟨k + 1, by rw [seqRun, iterate_succ, hstep]; exact hk⟩

end Sys2Proof.Proofs
end

section
/-! SUPPORT. What a beat of a kind decodes to with its value as a number; bytes staged by a field
instruction; the bytes of a serialised field as digits, and where they stand among those of other fields. -/

namespace Sys2Proof

/-! ## The value of a beat -/

/-- The value of a beat is the low bits of what stands above its kind code (R60). -/
theorem extract_fldVal (w : FldBeat) {n : Nat} (hn : n ≤ 64) :
    (fldVal w).extractLsb' 0 n = BitVec.ofNat n (w.toNat / 16) := by
  apply BitVec.eq_of_toNat_eq
  rw [fldVal, extractLsb'_eq_ofNat w 4 64]
  simp [Nat.mod_mod_of_dvd _ (Nat.pow_dvd_pow 2 hn)]

/-- A beat with the code of kind `k` decodes to the instruction of that kind, the value's low bits its
operand (R60, R69). -/
theorem decode_fld_of_code {w : FldBeat} (k : FieldKind) {n : Nat} (mk : BitVec n → Instr) (hn : n ≤ 64)
    (hmk : ∀ v, Instr.ofField (k, v) = mk (v.extractLsb' 0 n)) (h : w.toNat % 16 = k.code.toNat) :
    decode (.fld w) = .ok (mk (BitVec.ofNat n (w.toNat / 16))) := by
  have hkind : fldKind w = k.code := BitVec.eq_of_toNat_eq ((fldKind_toNat w).trans h)
  rw [decode_fld_of_kind (ofCode_eq_some_iff.2 hkind), hmk, extract_fldVal w hn]

end Sys2Proof

namespace Sys2Proof.Machine

/-! ## Bytes staged by a field instruction -/

theorem leBytes_one (v : BitVec 8) : leBytes 1 v = [v] := congrArg ([·]) BitVec.extractLsb'_eq_self

/-- An instruction that stages bytes within the 65535 puts them at `PBUF[PLEN]` and up, and leaves all else. -/
theorem stagesBytes_of_stage {i : Instr} {bs : List Byte} {s : State} (he : exec i s = stage bs s)
    (h : s.plen.toNat + bs.length ≤ 65535) : StagesBytes i bs s := by
  obtain ⟨hbig, -⟩ | ⟨-, t, ht, hframe, hplen, hpbuf⟩ := stage_cases bs s
  · omega
  have hread := pbufRead_staged (by rw [hframe]) (by rw [hframe]) hpbuf
  refine ⟨t, he.trans ht, hframe, hplen, fun k hk => ?_, fun k hk => ?_⟩
  · rw [hread, if_neg (by omega), if_pos (by omega), Nat.add_sub_cancel_left]
  · rw [hread]
    split
    · rfl
    · rw [if_neg (by omega)]

/-! ## Serialised fields -/

/-- Byte `i` of a field is digit `i` of its value to the base 256 (R107). -/
theorem ser_getD_toNat (f : Field) {i : Nat} (h : i < f.1.bytes) :
    ((ser f).getD i 0).toNat = f.2.toNat / 256 ^ i % 256 := by
  rw [ser, leBytes_getD f.2 h, BitVec.extractLsb'_toNat, Nat.shiftRight_eq_div_pow, Nat.pow_mul]

/-- The bytes of a field stand after those of the fields before it (R107, R117). -/
theorem serAll_getD_field (F G : List Field) (f : Field) {i : Nat} (h : i < f.1.bytes) :
    (serAll (F ++ f :: G)).getD (payloadSize F + i) 0 = (ser f).getD i 0 := by
  rw [serAll_append, serAll_cons, List.getD_append_right _ _ _ _ (by simp), serAll_length,
    Nat.add_sub_cancel_left, List.getD_append _ _ _ _ (by simpa)]

/-- In the packet they stand 6 further on (R117). -/
theorem packetOf_getD_field (cls id : Byte) (F G : List Field) (f : Field) {i : Nat} (h : i < f.1.bytes) :
    (packetOf cls id false (F ++ f :: G)).getD (6 + payloadSize F + i) 0 = (ser f).getD i 0 := by
  have hin : payloadSize F + i < payloadSize (F ++ f :: G) := by
    simp only [← serAll_length, serAll_append, serAll_cons, List.length_append, ser_length]
    omega
  rw [Nat.add_assoc, packetOf_payload hin, serAll_getD_field F G f h]

end Sys2Proof.Machine
end

section
/-! PROOFS. The statements about payload fields: what each kind stages, serialisation, and the bound. -/

namespace Sys2Proof.Proofs
open Sys2Proof Sys2Proof.Machine

/-- Settles O17: the one byte of the value is the value. -/
theorem oneByteFieldsStageTheirByte : Obligations.OneByteFieldsStageTheirByte := by
  refine ⟨fun s v h => ?_, fun w => ⟨?_, ?_, ?_⟩⟩
  · have hstage : stage (leBytes 1 v) s = stage [v] s := by rw [leBytes_one]
    exact ⟨stagesBytes_of_stage hstage h, stagesBytes_of_stage hstage h, stagesBytes_of_stage hstage h⟩
  · exact decode_fld_of_code .u8 .fldU8 (by decide) fun _ => rfl
  · exact decode_fld_of_code .i8 .fldI8 (by decide) fun _ => rfl
  · exact decode_fld_of_code .raw .fldRaw (by decide) fun _ => rfl

/-- Settles O18: the bytes staged are `le_bytes(v, 2)`. -/
theorem twoByteFieldsStageLowByteFirst : Obligations.TwoByteFieldsStageLowByteFirst :=
  ⟨fun _ _ h => ⟨stagesBytes_of_stage rfl h, stagesBytes_of_stage rfl h⟩,
    fun _ => ⟨decode_fld_of_code .u16 .fldU16 (by decide) fun _ => rfl,
      decode_fld_of_code .i16 .fldI16 (by decide) fun _ => rfl⟩⟩

/-- Settles O19: the bytes staged are `le_bytes(v, 4)`. -/
theorem fourByteFieldsStageLowByteFirst : Obligations.FourByteFieldsStageLowByteFirst :=
  ⟨fun _ _ h => ⟨stagesBytes_of_stage rfl h, stagesBytes_of_stage rfl h, stagesBytes_of_stage rfl h⟩,
    fun _ => ⟨decode_fld_of_code .u32 .fldU32 (by decide) fun _ => rfl,
      decode_fld_of_code .i32 .fldI32 (by decide) fun _ => rfl,
      decode_fld_of_code .f32 .fldF32 (by decide) fun _ => rfl⟩⟩

/-- Settles O20: the bytes staged are `le_bytes(v, 8)`, and the value is the whole of `val`. -/
theorem eightByteFieldStagesLowByteFirst : Obligations.EightByteFieldStagesLowByteFirst :=
  ⟨fun _ _ h => stagesBytes_of_stage rfl h,
    fun _ => decode_fld_of_code .f64 .fldF64 (by decide) fun _ => congrArg _ BitVec.extractLsb'_eq_self.symm⟩

/-- Settles O21: digits to the base 256 within a field, concatenation between fields. -/
theorem serialisationIsDenseLittleEndian : Obligations.SerialisationIsDenseLittleEndian :=
  ⟨fun f => ⟨ser_length f, fun _ hi => ser_getD_toNat f hi⟩, serAll_nil, serAll_append, serAll_length,
    fun F G f _ cls id hi => ⟨serAll_getD_field F G f hi, packetOf_getD_field cls id F G f hi⟩⟩

/-- Settles O22: staging refuses the field, and field intake the `BUILD`, before the capacity is looked at. -/
theorem payloadOver65535IsRefused : Obligations.PayloadOver65535IsRefused := by
  refine ⟨fun s f h => ?_, execBuild_too_large⟩
  rw [exec_ofField, stage_refused _ _ (by rwa [ser_length])]

end Sys2Proof.Proofs
end

section
/-! SUPPORT. A core that has ended waits; a step that is not a wait changes the `ACC` input, a channel, the phase
or `OFF`. -/

namespace Sys2Proof.Machine

/-! ## Steps that change nothing -/

/-- A core that has ended waits for a command and loses nothing (R135; log 10). -/
theorem step_ended {s : State} (ha : s.acc = none) (h : Ended s) : step s = .next s := by
  obtain ⟨hp, hc⟩ := h
  simp only [step, fetch, ha, hp, fetchCommand, hc]

theorem not_ended_and_stuck (s : State) : ¬(Ended s ∧ Stuck s) := by
  rintro ⟨⟨hidle, -⟩, hload, -⟩
  exact absurd (hidle.symm.trans hload) nofun

/-- `OFF` counts modulo `2 ^ 32`, so one more is never the same. -/
theorem off_ne_succ (s : State) : s.off ≠ s.off + 1 := by simp

/-- `PAYLOAD` moves `OFF`, also where it stays in `PAYLOAD`. -/
theorem seqPayload_ne_self (s : State) : seqPayload s ≠ .next s := by
  intro h
  obtain ⟨-, -, hs⟩ := seqPayload_inv h
  exact off_ne_succ s (congrArg State.off hs)

/-- `RANGE` moves `OFF`, or ends in `RESP`. -/
theorem seqRange_ne_self {s : State} (hp : s.ph = .range) : seqRange s ≠ .next s := by
  intro h
  obtain ⟨-, hs⟩ | ⟨-, hs⟩ := seqRange_inv h
  · exact off_ne_succ s (congrArg State.off hs)
  · exact absurd (hp.symm.trans (congrArg State.ph hs)) nofun

/-- Inside an operation that waits for no beat, a step of the sequencer is never a wait: of the phases of
the fixed walk (R82, R101) only `PAYLOAD` and `RANGE` then lead to themselves, and they move `OFF`. -/
theorem seqStep_ne_self {s : State} (hi : s.ph ≠ .idle) (hz : s.ph = .load → s.nfr = 0) :
    seqStep s ≠ .next s := by
  intro h
  have hwalk := Proofs.phasesFollowTheFixedWalk s s h
  cases hp : s.ph with
  | idle => exact hi hp
  | load => simp [hp, hz hp] at hwalk
  | payload =>
    simp only [seqStep, hp] at h
    exact seqPayload_ne_self s h
  | range =>
    simp only [seqStep, hp] at h
    exact seqRange_ne_self hp h
  | lenHi =>
    simp only [hp] at hwalk
    split at hwalk <;> cases hwalk
  | check | sync1 | sync2 | cls | idb | lenLo | cka | ckb | resp => simp [hp] at hwalk

/-- A step that changes nothing is the wait of a core that has ended or is stuck, case by case of a step. -/
theorem ended_or_stuck_of_step_self {s : State} (h : step s = .next s) : s.acc = none ∧ (Ended s ∨ Stuck s) := by
  obtain ⟨w, hw, e⟩ | ⟨ha, -, hend⟩ | ⟨-, -, w, ws, c, hc, -, e⟩ | ⟨-, -, -, w, ws, f, hf, -, e⟩ | ⟨r, e⟩ |
    ⟨-, hi, hz, e⟩ := step_cases s
  case inr.inl => exact ⟨ha, hend⟩
  all_goals
    rw [e] at h
    exfalso
  · rw [driveAcc_eq] at h
    have hnone : none = s.acc := congrArg State.acc (Host.Outcome.next.inj h)
    exact absurd (hnone.trans hw) nofun
  · obtain ⟨hcmd, -⟩ := execCommand_answers h
    exact List.cons_ne_self w ws (hc.symm.trans hcmd)
  · obtain ⟨hs, -⟩ := stage_inv h
    exact List.cons_ne_self w ws (hf.symm.trans (congrArg State.fld hs))
  · cases h
  · exact seqStep_ne_self hi hz h

end Sys2Proof.Machine
end

section
/-! PROOFS. The statements about a core that waits. -/

namespace Sys2Proof.Proofs
open Sys2Proof Sys2Proof.Machine

/-- Settles O37: the two waits change nothing, and every other step changes some part of the state. -/
theorem waitingCoreHasEndedOrIsStuck : Obligations.WaitingCoreHasEndedOrIsStuck :=
  fun s => ⟨⟨ended_or_stuck_of_step_self, fun ⟨ha, hwait⟩ => hwait.elim (step_ended ha) (step_stuck ha)⟩,
    not_ended_and_stuck s⟩

/-- Settles O36, by the two ways to wait. -/
theorem waitingCoreKeepsItsState : Obligations.WaitingCoreKeepsItsState :=
  ⟨fun _ ha hp hc => step_ended ha ⟨hp, hc⟩, fun _ ha hp hz hf => step_stuck ha ⟨hp, hz, hf⟩⟩

end Sys2Proof.Proofs
end

section
/-! PROOFS. The statements about accesses beyond the buffers really bound, and about `rst`. -/

namespace Sys2Proof.Proofs
open Sys2Proof Sys2Proof.Machine

/-- Settles O16: with the range check passed, the reads come to the first byte that is not there. -/
theorem readBeyondTheBoundBufferIsRefused : Obligations.ReadBeyondTheBoundBufferIsRefused :=
  execCksum_overrun

/-- Settles O31: with all beats taken and the capacity check passed, the writes come to the end of the buffer. -/
theorem writeBeyondTheBoundBufferIsRefused : Obligations.WriteBeyondTheBoundBufferIsRefused :=
  execBuild_overrun

/-- Settles O46: `rst` writes the reset state over all but the memory, the bindings and the model's own fields. -/
theorem rstResetsTheCoreNotTheBuffers : Obligations.RstResetsTheCoreNotTheBuffers := by
  intro s
  simp only [rst, State.reset, and_self]

end Sys2Proof.Proofs
end
